-- ==== Sys2Proof/Word.lean ====
section
/-! DEFINITION. The one word type of the core: a byte (R5: XLEN is 8; R8: a byte is an integer in 0..255). -/

namespace Sys2Proof

/-- A byte: the contents of a register, a memory cell, an operand field, an I/O item (R5, R8). -/
abbrev Byte := BitVec 8

end Sys2Proof
end

