-- ==== Sys2Proof/Config.lean ====
section
/-! DEFINITION. What is fixed for one core: the sizes the source states (R5) and the record of the
parameters that R6 tells a model to take as arguments. Their default values stand in Machine/Tables.lean. -/

namespace Sys2Proof

namespace Config

/-- MEMSIZE: 256 bytes of data memory, equal to 2^XLEN, so that no address is out of range (R5, R30). -/
def memSize : Nat := 256

/-- ILEN: an instruction record is 3 bytes (R5, R46). -/
def recordLength : Nat := 3

end Config

/-- REG_CODE: the operand byte that names each register (R6, R50). -/
structure RegCodes where
  ra : Byte
  rb : Byte
  rc : Byte
  rd : Byte
  re : Byte
  rf : Byte
  deriving DecidableEq, Repr

/-- OPC: the opcode byte of each mnemonic (R6, R53). -/
structure Opcodes where
  add : Byte
  sub : Byte
  imm : Byte
  cmp : Byte
  stm : Byte
  ldm : Byte
  jmp : Byte
  jne : Byte
  jlt : Byte
  and : Byte
  orr : Byte
  xor : Byte
  not : Byte
  sys : Byte
  mov : Byte
  deriving DecidableEq, Repr

/-- SYS_WRITE, SYS_READ, SYS_EXIT: the three syscall selectors (R6, R87). -/
structure Selectors where
  write : Byte
  read : Byte
  exit : Byte
  deriving DecidableEq, Repr

/-- ERR_WRITE, ERR_READ, ERR_SYSCALL, ERR_OPCODE, ERR_REGISTER: the five error sentinels (R6, R96). -/
structure Sentinels where
  write : Byte
  read : Byte
  syscall : Byte
  opcode : Byte
  register : Byte
  deriving DecidableEq, Repr

/-- FPOS_S, FPOS_C, FPOS_Z, FPOS_V: the bit position of each flag in the 4-bit number F (R6, R18, I9). -/
structure FlagPositions where
  s : Fin 4
  c : Fin 4
  z : Fin 4
  v : Fin 4
  deriving DecidableEq, Repr

/-- The parameters of a core (R6). They are plain data, fixed when a core is constructed, and no step
changes them. `jltCond` is JLT_COND (I1) written as a table: bit S + 2·C + 4·Z + 8·V says whether jlt
branches when the flags are S, C, Z, V. (DESIGN CHOICE, safe: entries 1 and 9 of the log.) -/
structure Params where
  regCode : RegCodes
  opc : Opcodes
  sel : Selectors
  err : Sentinels
  fpos : FlagPositions
  jltCond : BitVec 16
  deriving DecidableEq, Repr

end Sys2Proof
end

