-- ==== Sys2Proof/Syntax.lean ====
section
/-! DEFINITION. The instruction set as syntax: register names, mnemonics, operand kinds, the raw 3-byte
record and the tagged instruction the decoder produces (R13, R46, R49, R53, R56). -/

namespace Sys2Proof

/-- The six general registers (R13). ra is the first register and rb the second (R14). -/
inductive Reg where
  | ra | rb | rc | rd | re | rf
  deriving DecidableEq, Repr

/-- The fifteen mnemonics of the opcode map, in its order (R53). -/
inductive Mnemonic where
  | add | sub | imm | cmp | stm | ldm | jmp | jne | jlt | and | orr | xor | not | sys | mov
  deriving DecidableEq, Repr

/-- The kind of an operand (R49). `undefined` is mov's, which has no operand kinds (R94). -/
inductive OperandKind where
  | reg | lit | ign | undefined
  deriving DecidableEq, Repr

/-- A fetched instruction record `[op][a][b]` (R46). -/
structure Record where
  op : Byte
  a : Byte
  b : Byte
  deriving DecidableEq, Repr

/-- Why a record does not decode to an instruction (R56). -/
inductive DecodeFault where
  /-- the opcode byte is no mnemonic's (R54) -/
  | badOpcode
  /-- an operand of kind REG is no register's code (R50) -/
  | badRegister
  deriving DecidableEq, Repr

/-- A tagged instruction, with the payloads of R56: register names and bytes. A byte of kind IGN is
discarded. Every term of this type is a well-formed instruction, since a register operand is already a
register's name and every byte is a legal literal (R51, R71). -/
inductive Instr where
  /-- add A B (R69) -/
  | add (rA rB : Reg)
  /-- sub A B (R70) -/
  | sub (rA rB : Reg)
  /-- imm A lit (R71) -/
  | imm (rA : Reg) (lit : Byte)
  /-- cmp A B (R78) -/
  | cmp (rA rB : Reg)
  /-- stm A B (R81) -/
  | stm (rA rB : Reg)
  /-- ldm A B (R82) -/
  | ldm (rA rB : Reg)
  /-- jmp target (R84) -/
  | jmp (t : Byte)
  /-- jne target (R85) -/
  | jne (t : Byte)
  /-- jlt target (R86) -/
  | jlt (t : Byte)
  /-- and A B (R73) -/
  | and (rA rB : Reg)
  /-- orr A B (R74) -/
  | orr (rA rB : Reg)
  /-- xor A B (R75) -/
  | xor (rA rB : Reg)
  /-- not A B (R72) -/
  | not (rA rB : Reg)
  /-- sys (R89) -/
  | sys
  /-- mov, the reserved opcode (R94) -/
  | mov
  deriving DecidableEq, Repr

/-- The registers in their order (R13). -/
def Reg.all : List Reg := [.ra, .rb, .rc, .rd, .re, .rf]

/-- The mnemonics in the order of the opcode map (R53). -/
def Mnemonic.all : List Mnemonic :=
  [.add, .sub, .imm, .cmp, .stm, .ldm, .jmp, .jne, .jlt, .and, .orr, .xor, .not, .sys, .mov]

/-- The mnemonic of an instruction (R56). -/
def Instr.mnemonic : Instr → Mnemonic
  | .add _ _ => .add
  | .sub _ _ => .sub
  | .imm _ _ => .imm
  | .cmp _ _ => .cmp
  | .stm _ _ => .stm
  | .ldm _ _ => .ldm
  | .jmp _ => .jmp
  | .jne _ => .jne
  | .jlt _ => .jlt
  | .and _ _ => .and
  | .orr _ _ => .orr
  | .xor _ _ => .xor
  | .not _ _ => .not
  | .sys => .sys
  | .mov => .mov

end Sys2Proof
end

