-- ==== Sys2Proof/Machine/Tables.lean ====
section
/-! DEFINITION. The tables of the encoding: the default value of every parameter (R6), the code and opcode
of each name, their inverse lookups, and the operand kinds (R49, R50, R53, R87, R96). -/

namespace Sys2Proof

/-- The default parameters (R6, R18, R50, R53, R86, R87, R96). The values are the spec's own choices
D2 to D6 and D8, not the source's: log entries 2 and 9 (unsafe of the original reference). -/
def Params.default : Params where
  regCode := { ra := 0x01, rb := 0x02, rc := 0x04, rd := 0x08, re := 0x10, rf := 0x20 }
  opc := { add := 0x01, sub := 0x02, imm := 0x03, cmp := 0x04, stm := 0x05, ldm := 0x06, jmp := 0x07,
           jne := 0x08, jlt := 0x09, and := 0x0A, orr := 0x0B, xor := 0x0C, not := 0x0D, sys := 0x0E,
           mov := 0x0F }
  sel := { write := 0x01, read := 0x02, exit := 0x08 }
  err := { write := 0xFF, read := 0xFE, syscall := 0xFD, opcode := 0xFC, register := 0xFB }
  fpos := { s := 0, c := 1, z := 2, v := 3 }
  -- S is the lowest bit of the table's index, so the odd entries are those with S = 1
  jltCond := 0xAAAA

/-- The code byte of a register, REG_CODE (R50). -/
def RegCodes.code (c : RegCodes) : Reg → Byte
  | .ra => c.ra
  | .rb => c.rb
  | .rc => c.rc
  | .rd => c.rd
  | .re => c.re
  | .rf => c.rf

/-- The opcode byte of a mnemonic, OPC (R53). -/
def Opcodes.code (o : Opcodes) : Mnemonic → Byte
  | .add => o.add
  | .sub => o.sub
  | .imm => o.imm
  | .cmp => o.cmp
  | .stm => o.stm
  | .ldm => o.ldm
  | .jmp => o.jmp
  | .jne => o.jne
  | .jlt => o.jlt
  | .and => o.and
  | .orr => o.orr
  | .xor => o.xor
  | .not => o.not
  | .sys => o.sys
  | .mov => o.mov

/-- `reg(c)`: the register whose code equals c, or none (R50). Equality is the only test made. -/
def regOf (p : Params) (c : Byte) : Option Reg :=
  Reg.all.find? (fun r => p.regCode.code r == c)

/-- The mnemonic whose opcode equals op, or none (R53, R54, R56). -/
def mnemonicOf (p : Params) (op : Byte) : Option Mnemonic :=
  Mnemonic.all.find? (fun m => p.opc.code m == op)

/-- The kind of operand A of each mnemonic (R49). -/
def kindA : Mnemonic → OperandKind
  | .add => .reg
  | .sub => .reg
  | .imm => .reg
  | .cmp => .reg
  | .stm => .reg
  | .ldm => .reg
  | .jmp => .lit
  | .jne => .lit
  | .jlt => .lit
  | .and => .reg
  | .orr => .reg
  | .xor => .reg
  | .not => .reg
  | .sys => .ign
  | .mov => .undefined

/-- The kind of operand B of each mnemonic (R49). -/
def kindB : Mnemonic → OperandKind
  | .add => .reg
  | .sub => .reg
  | .imm => .lit
  | .cmp => .reg
  | .stm => .reg
  | .ldm => .reg
  | .jmp => .ign
  | .jne => .ign
  | .jlt => .ign
  | .and => .reg
  | .orr => .reg
  | .xor => .reg
  | .not => .reg
  | .sys => .ign
  | .mov => .undefined

end Sys2Proof
end

