-- ==== Sys2Proof/WellFormed.lean ====
section
/-! DEFINITION. The checks: when a choice of parameters is one the spec allows, when an operand byte fits its
kind, when a record is a well-formed instruction word, and when a program image is one. A term of Instr
needs no check (see its docstring). -/

namespace Sys2Proof

/-- REG_CODE is injective (R50). -/
abbrev Params.RegCodesDistinct (p : Params) : Prop := (Reg.all.map p.regCode.code).Nodup

/-- OPC is injective (R53). -/
abbrev Params.OpcodesDistinct (p : Params) : Prop := (Mnemonic.all.map p.opc.code).Nodup

/-- The three selectors as a list (R87). -/
def Selectors.toList (s : Selectors) : List Byte := [s.write, s.read, s.exit]

/-- The five sentinels as a list (R96). -/
def Sentinels.toList (e : Sentinels) : List Byte := [e.write, e.read, e.syscall, e.opcode, e.register]

/-- The selectors are pairwise distinct (R87). -/
abbrev Params.SelectorsDistinct (p : Params) : Prop := p.sel.toList.Nodup

/-- The sentinels are pairwise distinct (R96). -/
abbrev Params.SentinelsDistinct (p : Params) : Prop := p.err.toList.Nodup

/-- No selector is a sentinel (R87, R96). -/
abbrev Params.SelectorsNotSentinels (p : Params) : Prop := ∀ x ∈ p.sel.toList, x ∉ p.err.toList

/-- The four flags have four positions (R18, I9). -/
abbrev Params.FlagPositionsDistinct (p : Params) : Prop :=
  [p.fpos.s, p.fpos.c, p.fpos.z, p.fpos.v].Nodup

/-- A choice of parameters the spec allows (R6, R50, R53, R87, R96, I9). -/
abbrev Params.Wf (p : Params) : Prop :=
  p.RegCodesDistinct ∧ p.OpcodesDistinct ∧ p.SelectorsDistinct ∧ p.SentinelsDistinct ∧
    p.SelectorsNotSentinels ∧ p.FlagPositionsDistinct

/-- An operand byte fits its kind: a REG operand is some register's code, any other is free (R49, R55). -/
def operandWf (p : Params) (k : OperandKind) (c : Byte) : Bool :=
  match k with
  | .reg => (regOf p c).isSome
  | .lit => true
  | .ign => true
  | .undefined => true

/-- A record is a well-formed instruction word: its opcode is a mnemonic's and its operands fit (R54-R56). -/
def Record.wf (p : Params) (r : Record) : Bool :=
  match mnemonicOf p r.op with
  | none => false
  | some m => operandWf p (kindA m) r.a && operandWf p (kindB m) r.b

/-- A program image is whole records (R47, R109). -/
def imageWf (image : List Byte) : Bool := image.length % Config.recordLength == 0

end Sys2Proof
end

