-- ==== Sys2Proof/Decode.lean ====
section
/-! DEFINITION. Decoding a record to a tagged instruction (R56), total on all records and rejecting by name,
and the encoder written from the same tables (R46, R49, R50, R53). -/

namespace Sys2Proof

/-- Both operands are registers; A is checked first (R56, R98). -/
def decodeRR (p : Params) (r : Record) (mk : Reg → Reg → Instr) : Except DecodeFault Instr :=
  match regOf p r.a with
  | none => .error .badRegister
  | some rA =>
    match regOf p r.b with
    | none => .error .badRegister
    | some rB => .ok (mk rA rB)

/-- A is a register and B a literal byte, which is not checked (R56, R71). -/
def decodeRI (p : Params) (r : Record) (mk : Reg → Byte → Instr) : Except DecodeFault Instr :=
  match regOf p r.a with
  | none => .error .badRegister
  | some rA => .ok (mk rA r.b)

/-- A is a literal byte and B is ignored (R51, R52, R56). -/
def decodeIX (r : Record) (mk : Byte → Instr) : Except DecodeFault Instr := .ok (mk r.a)

/-- Decode(op, a, b) of R56. The opcode is judged before any operand (R98). The reserved mov is recognised
(R55) and answers `.mov`, whose meaning raises BAD_OPCODE whatever its bytes are (R94): log entry 6. -/
def decode (p : Params) (r : Record) : Except DecodeFault Instr :=
  match mnemonicOf p r.op with
  | none => .error .badOpcode
  | some .add => decodeRR p r .add
  | some .sub => decodeRR p r .sub
  | some .imm => decodeRI p r .imm
  | some .cmp => decodeRR p r .cmp
  | some .stm => decodeRR p r .stm
  | some .ldm => decodeRR p r .ldm
  | some .jmp => decodeIX r .jmp
  | some .jne => decodeIX r .jne
  | some .jlt => decodeIX r .jlt
  | some .and => decodeRR p r .and
  | some .orr => decodeRR p r .orr
  | some .xor => decodeRR p r .xor
  | some .not => decodeRR p r .not
  | some .sys => .ok .sys
  | some .mov => .ok .mov

/-- The byte the encoder writes where an operand is ignored (R52 allows any; DESIGN CHOICE, safe: entry 11). -/
def ignoredByte : Byte := 0x00

/-- A record of two register operands (R46, R50, R53). -/
def encodeRR (p : Params) (m : Mnemonic) (rA rB : Reg) : Record :=
  { op := p.opc.code m, a := p.regCode.code rA, b := p.regCode.code rB }

/-- A record of a literal target and an ignored byte (R46, R51, R52). -/
def encodeIX (p : Params) (m : Mnemonic) (t : Byte) : Record :=
  { op := p.opc.code m, a := t, b := ignoredByte }

/-- The record of an instruction (R46, R49, R50, R53). -/
def encode (p : Params) : Instr → Record
  | .add rA rB => encodeRR p .add rA rB
  | .sub rA rB => encodeRR p .sub rA rB
  | .imm rA lit => { op := p.opc.code .imm, a := p.regCode.code rA, b := lit }
  | .cmp rA rB => encodeRR p .cmp rA rB
  | .stm rA rB => encodeRR p .stm rA rB
  | .ldm rA rB => encodeRR p .ldm rA rB
  | .jmp t => encodeIX p .jmp t
  | .jne t => encodeIX p .jne t
  | .jlt t => encodeIX p .jlt t
  | .and rA rB => encodeRR p .and rA rB
  | .orr rA rB => encodeRR p .orr rA rB
  | .xor rA rB => encodeRR p .xor rA rB
  | .not rA rB => encodeRR p .not rA rB
  | .sys => { op := p.opc.code .sys, a := ignoredByte, b := ignoredByte }
  | .mov => { op := p.opc.code .mov, a := ignoredByte, b := ignoredByte }

/-- The bytes of a record at increasing byte offsets (R35, R46). -/
def Record.bytes (r : Record) : List Byte := [r.op, r.a, r.b]

/-- The record whose bits are w as `opcode_table.json` numbers them: the record is one 24-bit number with
the opcode in bits 23..16, operand A in 15..8 and operand B in 7..0 (DEDUCED from the table, safe: entry 20).
Bits from `nbits` up are zero. -/
def recordOfTableWord (nbits w : Nat) : Record :=
  let x := w % 2 ^ nbits
  { op := BitVec.ofNat 8 (x / 2 ^ 16), a := BitVec.ofNat 8 (x / 2 ^ 8), b := BitVec.ofNat 8 x }

/-- A record as the number the opcode table writes for it (entry 20). -/
def Record.tableWord (r : Record) : Nat := r.op.toNat * 2 ^ 16 + r.a.toNat * 2 ^ 8 + r.b.toNat

/-- The instruction the decoder reads from a word of the opcode table, under the default parameters; none
where it refuses (BAD_OPCODE or BAD_REGISTER). -/
def decodeTableWord (nbits w : Nat) : Option Instr :=
  match decode Params.default (recordOfTableWord nbits w) with
  | .ok i => some i
  | .error _ => none

end Sys2Proof
end

