-- ==== Sys2Proof/Machine/State.lean ====
section
/-! DEFINITION. The state of the core as plain data: every piece of state the spec gives the machine
(10_state.md), its reasons to halt, and the state right after construction (R28). -/

namespace Sys2Proof.Machine

/-- The six general registers (R13). -/
structure Regs where
  ra : Byte
  rb : Byte
  rc : Byte
  rd : Byte
  re : Byte
  rf : Byte
  deriving DecidableEq, Repr

/-- The four flags of F (R18). Their positions in the number F are a view for the host (entry 21). -/
structure Flags where
  /-- sign: bit 7 of the compare's 8-bit difference -/
  s : Bool
  /-- carry: bit 8 of the 9-bit sum A + (256 - B) -/
  c : Bool
  /-- zero: the 8-bit difference is 0 -/
  z : Bool
  /-- overflow, by the source's formula (R76, R79) -/
  v : Bool
  deriving DecidableEq, Repr

/-- The kinds of halting fault (R96). -/
inductive FaultKind where
  /-- sys write with no write budget left (R90) -/
  | writeExhausted
  /-- sys read with no read budget or no input left (R91) -/
  | readExhausted
  /-- sys with an unrecognised selector in ra (R93) -/
  | badSyscall
  /-- an illegal opcode, or the reserved mov (R54, R94) -/
  | badOpcode
  /-- a REG operand that is no register's code (R56) -/
  | badRegister
  /-- a fetch at ip >= NSLOTS (R35) -/
  | fetchRange
  deriving DecidableEq, Repr

/-- The halt-status register HS (R24). -/
inductive HaltStatus where
  | running
  | exited
  | fault (k : FaultKind)
  deriving DecidableEq, Repr

/-- Data memory M (R21) as the cells that differ from what an unlisted address reads as, addresses
strictly rising: the canonical form `Memory.wf` of Machine/Ops.lean (entry 10). -/
abbrev Memory := List Host.Cell

/-- The state of a core: all of 10_state.md, and the parameters it was built with (R6, entry 1). -/
structure State where
  /-- ra to rf (R13) -/
  regs : Regs
  /-- the instruction pointer, an index of records (R16) -/
  ip : Nat
  /-- the flags register F (R18) -/
  flags : Flags
  /-- the data memory M (R21) -/
  mem : Memory
  /-- the instruction store IMEM: the program image, read-only (R22) -/
  imem : List Byte
  /-- the input buffer IN, read-only (R23) -/
  inBuf : List Byte
  /-- the read cursor RCUR (R23) -/
  rcur : Nat
  /-- the read budget RBUD (R23) -/
  rbud : Nat
  /-- the write budget WBUD (R23) -/
  wbud : Nat
  /-- the output buffer OUT, append-only (R23) -/
  out : List Byte
  /-- the halt status HS (R24) -/
  hs : HaltStatus
  /-- the parameters, which no step changes (R6, entry 1) -/
  params : Params
  deriving DecidableEq, Repr

/-- Why the host interface's outcome `fault` could arise. It has no constructor: every error of this core
is a halting fault whose writes the spec gives (R95), so it is a next state, and no step of the model stops
outside it. Safe: nothing is cut off (entry 7). -/
inductive Fault where
  deriving DecidableEq, Repr

/-- Why a step could be refused. -/
inductive Refusal where
  /-- raised by an arm of `exec` whose instruction has no meaning yet; no arm is one. Safe: the machine
  stops where the hardware goes on. -/
  | notModelled (mnemonic : String)
  deriving DecidableEq, Repr

/-- The outcome of an instruction or of a step. -/
abbrev Result := Host.Outcome State Fault Refusal

/-- INIT_REGS: all zero (R28; D10; entry 4). -/
def initRegs : Regs := { ra := 0, rb := 0, rc := 0, rd := 0, re := 0, rf := 0 }

/-- INIT_FLAGS: S = C = Z = V = 0 (R28; D10; entry 4). -/
def initFlags : Flags := { s := false, c := false, z := false, v := false }

/-- The core right after construction (R28) with default parameters and nothing supplied by the host:
the empty image, which R109 allows, the empty input and zero budgets (DESIGN CHOICE, unsafe: entry 3). -/
def State.reset : State where
  regs := initRegs
  ip := 0
  flags := initFlags
  mem := []
  imem := []
  inBuf := []
  rcur := 0
  rbud := 0
  wbud := 0
  out := []
  hs := .running
  params := Params.default

end Sys2Proof.Machine
end

