-- ==== Sys2Proof/Machine/Ops.lean ====
section
/-! DEFINITION. The named operations over registers, memory, the instruction store and the instruction
pointer, and the two ways a step halts: raising a halting fault and exiting. -/

namespace Sys2Proof.Machine

/-! Registers (R9, R13). -/

/-- `x[r]` of a register file (R9). -/
def Regs.get (x : Regs) : Reg → Byte
  | .ra => x.ra
  | .rb => x.rb
  | .rc => x.rc
  | .rd => x.rd
  | .re => x.re
  | .rf => x.rf

/-- `x[r] <- v` on a register file (R9). No register is hard-wired (R13). -/
def Regs.set (x : Regs) (r : Reg) (v : Byte) : Regs :=
  match r with
  | .ra => { x with ra := v }
  | .rb => { x with rb := v }
  | .rc => { x with rc := v }
  | .rd => { x with rd := v }
  | .re => { x with re := v }
  | .rf => { x with rf := v }

/-- `x[r]` (R9). -/
def State.reg (s : State) (r : Reg) : Byte := s.regs.get r

/-- `x[r] <- v` (R9). -/
def State.setReg (s : State) (r : Reg) (v : Byte) : State := { s with regs := s.regs.set r v }

/-- `F <- f`: all four flags at once (R77). -/
def State.setFlags (s : State) (f : Flags) : State := { s with flags := f }

/-! The instruction pointer (R16, R17). -/

/-- `ip <- ip + 1`: the default increment; ip never wraps (R16, R17). -/
def State.advance (s : State) : State := { s with ip := s.ip + 1 }

/-- `ip <- t` (R17, R83). -/
def State.jumpTo (s : State) (t : Nat) : State := { s with ip := t }

/-! Data memory (R29-R41). -/

/-- What an address no cell lists reads as: INIT_MEM's default (R28; D10; entry 10). -/
def Memory.unlisted : Byte := 0x00

/-- The byte at an address. -/
def Memory.read : Memory → Nat → Byte
  | [], _ => Memory.unlisted
  | (k, b) :: m, a => if k = a then b else Memory.read m a

/-- A memory with one more cell in front, which is left out when it reads as an unlisted one. -/
def Memory.consCell (a : Nat) (v : Byte) (m : Memory) : Memory :=
  if v = Memory.unlisted then m else (a, v) :: m

/-- The memory with the byte at an address replaced. It keeps the canonical form. -/
def Memory.write : Memory → Nat → Byte → Memory
  | [], a, v => Memory.consCell a v []
  | (k, b) :: m, a, v =>
    if a < k then Memory.consCell a v ((k, b) :: m)
    else if a = k then Memory.consCell a v m
    else (k, b) :: Memory.write m a v

/-- Every cell from address lo on: addresses strictly rising, inside the address space, no cell equal to
what an unlisted address reads as. -/
def Memory.wfFrom (lo : Nat) : Memory → Bool
  | [] => true
  | (a, v) :: m => decide (lo ≤ a) && decide (a < Config.memSize) && decide (v ≠ Memory.unlisted) && Memory.wfFrom (a + 1) m

/-- The canonical form of a memory (entry 10). -/
def Memory.wf (m : Memory) : Bool := Memory.wfFrom 0 m

/-- The canonical memory whose bytes from address lo on are those of a list. -/
def Memory.ofBytes (lo : Nat) : List Byte → Memory
  | [] => []
  | v :: vs => Memory.consCell lo v (Memory.ofBytes (lo + 1) vs)

/-- MemRead(addr, 1) (R33). Every byte is an address, so none is out of range (R29). -/
def State.memRead (s : State) (addr : Byte) : Byte := s.mem.read addr.toNat

/-- MemWrite(addr, 1, v) (R34). -/
def State.memWrite (s : State) (addr v : Byte) : State := { s with mem := s.mem.write addr.toNat v }

/-! The instruction store (R22, R31, R35). -/

/-- NSLOTS: the number of whole records in the image (R6, R22, R108). -/
def State.nslots (s : State) : Nat := s.imem.length / Config.recordLength

/-- IMEM[k]. The default is never read below 3·NSLOTS. -/
def State.imemByte (s : State) (k : Nat) : Byte := s.imem.getD k 0x00

/-- Fetch(i) of R35; none stands for raising FETCH_RANGE. -/
def fetch (s : State) (i : Nat) : Option Record :=
  if s.nslots ≤ i then none
  else some { op := s.imemByte (3 * i), a := s.imemByte (3 * i + 1), b := s.imemByte (3 * i + 2) }

/-- The record the host finds at index ip, when ip < NSLOTS (R99). -/
def State.recordAtIp (s : State) : Option Record := fetch s s.ip

/-- The image with the record at index i replaced. Slots missing before it are filled with
zero-instructions (R47). -/
def storeRecord (image : List Byte) (i : Nat) (r : Record) : List Byte :=
  (image ++ List.replicate (3 * i - image.length) 0x00).take (3 * i) ++ r.bytes ++ image.drop (3 * i + 3)

/-! Halting (R92, R95). -/

/-- ERR(k): the sentinel of a fault kind. FETCH_RANGE shares ERR_OPCODE (R96). -/
def sentinelOf (e : Sentinels) : FaultKind → Byte
  | .writeExhausted => e.write
  | .readExhausted => e.read
  | .badSyscall => e.syscall
  | .badOpcode => e.opcode
  | .badRegister => e.register
  | .fetchRange => e.opcode

/-- `raise Fault(k)`: ra takes the sentinel, HS records the kind, nothing else changes, ip included
(R95, R97, R99). This is the one way any error of the core is taken; there is no return from it (R100). -/
def raiseFault (k : FaultKind) (s : State) : State :=
  { s.setReg .ra (sentinelOf s.params.err k) with hs := .fault k }

/-- `halt Exit`: HS becomes EXITED and nothing else changes (R92). -/
def haltExit (s : State) : State := { s with hs := .exited }

/-- The fault kind a decoding failure raises (R56). -/
def decodeFaultKind : DecodeFault → FaultKind
  | .badOpcode => .badOpcode
  | .badRegister => .badRegister

/-- The halted boolean of a state: HS is not RUNNING (R24, R112). -/
def State.halted (s : State) : Bool := decide (s.hs ≠ .running)

end Sys2Proof.Machine
end

