-- ==== Sys2Proof/Machine/Operands.lean ====
section
/-! DEFINITION. The operand forms (R11, R49, R51, R80, R83): a register operand's value, a literal, the
effective addresses of stm and ldm, and a branch target. -/

namespace Sys2Proof.Machine

/-- A REG operand in a formula is the register's value (R11). -/
def regOperand (s : State) (r : Reg) : Byte := s.reg r

/-- A LIT operand is the record byte itself (R11, R51). -/
def litOperand (b : Byte) : Byte := b

/-- The effective address of stm is x[rA], used as it stands (R80). -/
def storeAddress (s : State) (rA : Reg) : Byte := s.reg rA

/-- The effective address of ldm is x[rB], used as it stands (R80). -/
def loadAddress (s : State) (rB : Reg) : Byte := s.reg rB

/-- A branch target is the literal byte as an absolute, unscaled instruction index (R51, R83). -/
def branchTarget (t : Byte) : Nat := t.toNat

end Sys2Proof.Machine
end

