-- ==== Sys2Proof/Machine/ArithLogic.lean ====
section
/-! DEFINITION. The family of 40_arith_logic.md: add, sub, imm, not, and, orr, xor. Each writes exactly one
register and advances ip; none touches F, M or the I/O state (R68). -/

namespace Sys2Proof.Machine

/-- (A + B) mod 256 (R69). -/
def aluAdd (a b : Byte) : Byte := BitVec.ofNat 8 ((a.toNat + b.toNat) % 256)

/-- (A + (256 - B)) mod 256 (R70). -/
def aluSub (a b : Byte) : Byte := BitVec.ofNat 8 ((a.toNat + (256 - b.toNat)) % 256)

/-- (256 - B) mod 256, the arithmetic negation (R72). -/
def aluNot (b : Byte) : Byte := BitVec.ofNat 8 ((256 - b.toNat) % 256)

/-- `x[rA] <- v; ip <- ip + 1`: how every instruction of the family ends (R68). -/
def writeResult (s : State) (rA : Reg) (v : Byte) : Result := .next (s.setReg rA v).advance

/-- add (R69). -/
def execAdd (rA rB : Reg) (s : State) : Result :=
  writeResult s rA (aluAdd (regOperand s rA) (regOperand s rB))

/-- sub (R70). -/
def execSub (rA rB : Reg) (s : State) : Result :=
  writeResult s rA (aluSub (regOperand s rA) (regOperand s rB))

/-- imm (R71). -/
def execImm (rA : Reg) (lit : Byte) (s : State) : Result := writeResult s rA (litOperand lit)

/-- not (R72). The old value of rA is not read. -/
def execNot (rA rB : Reg) (s : State) : Result := writeResult s rA (aluNot (regOperand s rB))

/-- and (R73). -/
def execAnd (rA rB : Reg) (s : State) : Result :=
  writeResult s rA (regOperand s rA &&& regOperand s rB)

/-- orr (R74). -/
def execOrr (rA rB : Reg) (s : State) : Result :=
  writeResult s rA (regOperand s rA ||| regOperand s rB)

/-- xor (R75). -/
def execXor (rA rB : Reg) (s : State) : Result :=
  writeResult s rA (regOperand s rA ^^^ regOperand s rB)

end Sys2Proof.Machine
end

