-- ==== Sys2Proof/Machine/Flags.lean ====
section
/-! DEFINITION. The flag computation of the compare (R76), F as a number (R18, R77), and the conditions the
branch unit reads from F (R20, R85, R86). -/

namespace Sys2Proof.Machine

/-- CmpFlags(A, B), the source's formula in exact integers (R76). The carry is bit 8 of the 9-bit result;
the overflow is the source's formula, not a subtraction's overflow (C4). -/
def cmpFlags (a b : Byte) : Flags :=
  let r := a.toNat + (256 - b.toNat)
  let lo := r % 256
  let signA := a.toNat.testBit 7
  let signB := b.toNat.testBit 7
  let signR := lo.testBit 7
  { s := signR
    c := r.testBit 8
    z := lo == 0
    v := (signA == signB) && (signR != signA) }

/-- pack(S, C, Z, V): F as a 4-bit number, S·2^FPOS_S + C·2^FPOS_C + Z·2^FPOS_Z + V·2^FPOS_V (R18, R77). -/
def packFlags (pos : FlagPositions) (f : Flags) : BitVec 4 :=
  BitVec.ofNat 4
    (f.s.toNat * 2 ^ pos.s.val + f.c.toNat * 2 ^ pos.c.val + f.z.toNat * 2 ^ pos.z.val +
      f.v.toNat * 2 ^ pos.v.val)

/-- The number a host reads for F (R18, R117). -/
def State.flagsNumber (s : State) : BitVec 4 := packFlags s.params.fpos s.flags

/-- The condition of jne: the zero flag (R20, R85). -/
def jneTaken (f : Flags) : Bool := f.z

/-- Where the table JLT_COND keeps its answer for given flags (Params.jltCond; entry 9). -/
def jltIndex (f : Flags) : Nat := f.s.toNat + 2 * f.c.toNat + 4 * f.z.toNat + 8 * f.v.toNat

/-- JLT_COND(F): by default S = 1 (R86; D8; entry 9). -/
def jltTaken (p : Params) (f : Flags) : Bool := p.jltCond.getLsbD (jltIndex f)

end Sys2Proof.Machine
end

