-- ==== Sys2Proof/Machine/Branch.lean ====
section
/-! DEFINITION. The branch unit of 43_branch.md: jmp, jne, jlt. A target past the last record is not checked
here; the next fetch raises FETCH_RANGE (R83). -/

namespace Sys2Proof.Machine

/-- `ip <- ip + 1; if taken: ip <- t`: the shape of the two conditional branches (R85, R86). -/
def branchIf (taken : Bool) (t : Byte) (s : State) : State :=
  if taken then s.advance.jumpTo (branchTarget t) else s.advance

/-- jmp: ip takes the literal target (R84). -/
def execJmp (t : Byte) (s : State) : Result := .next (s.jumpTo (branchTarget t))

/-- jne: branch if the zero flag is SET, whatever the name says (R85, C2). -/
def execJne (t : Byte) (s : State) : Result := .next (branchIf (jneTaken s.flags) t s)

/-- jlt: branch if JLT_COND holds, by default if the sign flag is set (R86; D8; entry 9). -/
def execJlt (t : Byte) (s : State) : Result := .next (branchIf (jltTaken s.params s.flags) t s)

end Sys2Proof.Machine
end

