-- ==== Sys2Proof/Machine/Compare.lean ====
section
/-! DEFINITION. The compare of 41_compare.md, the only instruction that writes F (R19). -/

namespace Sys2Proof.Machine

/-- cmp: F takes all four flags of the compare; no register is written (R78). -/
def execCmp (rA rB : Reg) (s : State) : Result :=
  .next (s.setFlags (cmpFlags (regOperand s rA) (regOperand s rB))).advance

end Sys2Proof.Machine
end

