-- ==== Sys2Proof/Machine/MemoryOps.lean ====
section
/-! DEFINITION. The memory instructions of 42_memory_ops.md: stm and ldm, the only ones that reach M (R36). -/

namespace Sys2Proof.Machine

/-- stm: store x[rB] at the address x[rA] (R81). -/
def execStm (rA rB : Reg) (s : State) : Result :=
  .next (s.memWrite (storeAddress s rA) (regOperand s rB)).advance

/-- ldm: load into rA the byte at the address x[rB]; the address is read before rA is written (R82, R10). -/
def execLdm (rA rB : Reg) (s : State) : Result :=
  .next (s.setReg rA (s.memRead (loadAddress s rB))).advance

end Sys2Proof.Machine
end

