-- ==== Sys2Proof/Machine/Reserved.lean ====
section
/-! DEFINITION. The reserved instruction of 45_reserved.md. -/

namespace Sys2Proof.Machine

/-- mov: raise BAD_OPCODE, whatever its operand bytes are (R94; D9; entry 6). -/
def execMov (s : State) : Result := .next (raiseFault .badOpcode s)

end Sys2Proof.Machine
end

