-- ==== Sys2Proof/Machine/Syscall.lean ====
section
/-! DEFINITION. The sys instruction and the operations of the syscall I/O controller (44_syscall.md). -/

namespace Sys2Proof.Machine

/-- The write operation's success: OUT grows by one byte and WBUD falls by one (R90). -/
def State.emit (s : State) (v : Byte) : State :=
  { s with out := s.out ++ [v], wbud := s.wbud - 1 }

/-- The read operation's bookkeeping: RCUR rises by one and RBUD falls by one (R91). -/
def State.consumeInput (s : State) : State :=
  { s with rcur := s.rcur + 1, rbud := s.rbud - 1 }

/-- SysWrite: emit rb if the write budget allows (R90). -/
def sysWrite (s : State) : State :=
  if s.wbud = 0 then raiseFault .writeExhausted s
  else (s.emit (s.reg .rb)).advance

/-- SysRead: take the next input byte into ra, if the read budget allows and a byte is left (R91;
the underrun is the spec's decision D15, entry 17). -/
def sysRead (s : State) : State :=
  if s.rbud = 0 then raiseFault .readExhausted s
  else
    match s.inBuf[s.rcur]? with
    | none => raiseFault .readExhausted s
    | some v => (s.setReg .ra v).consumeInput.advance

/-- sys: dispatch on the value of ra at the start (R88, R89). -/
def execSys (s : State) : Result :=
  let sel := s.reg .ra
  if sel = s.params.sel.write then .next (sysWrite s)
  else if sel = s.params.sel.read then .next (sysRead s)
  else if sel = s.params.sel.exit then .next (haltExit s)
  else .next (raiseFault .badSyscall s)

end Sys2Proof.Machine
end

