-- ==== Sys2Proof/Machine/Dispatch.lean ====
section
/-! DEFINITION. Execute(I) of R112: one arm per instruction, each one direct call of its meaning. -/

namespace Sys2Proof.Machine

def exec (i : Instr) (s : State) : Host.Outcome State Fault Refusal :=
  match i with
  | .add rA rB => Sys2Proof.Machine.execAdd rA rB s
  | .sub rA rB => Sys2Proof.Machine.execSub rA rB s
  | .imm rA lit => Sys2Proof.Machine.execImm rA lit s
  | .cmp rA rB => Sys2Proof.Machine.execCmp rA rB s
  | .stm rA rB => Sys2Proof.Machine.execStm rA rB s
  | .ldm rA rB => Sys2Proof.Machine.execLdm rA rB s
  | .jmp t => Sys2Proof.Machine.execJmp t s
  | .jne t => Sys2Proof.Machine.execJne t s
  | .jlt t => Sys2Proof.Machine.execJlt t s
  | .and rA rB => Sys2Proof.Machine.execAnd rA rB s
  | .orr rA rB => Sys2Proof.Machine.execOrr rA rB s
  | .xor rA rB => Sys2Proof.Machine.execXor rA rB s
  | .not rA rB => Sys2Proof.Machine.execNot rA rB s
  | .sys => Sys2Proof.Machine.execSys s
  | .mov => Sys2Proof.Machine.execMov s

end Sys2Proof.Machine
end

