-- ==== Sys2Proof/Machine/Step.lean ====
section
/-! DEFINITION. One step of the core: Step() of R112, fetch then decode then execute, with the order of the
faults R98 fixes. The halted boolean it returns is `State.halted` of the next state. -/

namespace Sys2Proof.Machine

/-- Step() (R112). A halted core does not change (R114). -/
def step (s : State) : Host.Outcome State Fault Refusal :=
  match s.hs with
  | .exited => .next s
  | .fault _ => .next s
  | .running =>
    match fetch s s.ip with
    | none => .next (raiseFault .fetchRange s)
    | some r =>
      match decode s.params r with
      | .error e => .next (raiseFault (decodeFaultKind e) s)
      | .ok i => exec i s

/-- The state with the record of a table word stored at index ip, where the next step fetches it, and
running, so that the step does fetch. It stands for the host's loading of a program (entries 3, 19). -/
def State.withFetchWord (s : State) (nbits w : Nat) : State :=
  { s with imem := storeRecord s.imem s.ip (recordOfTableWord nbits w), hs := .running }

end Sys2Proof.Machine
end

