-- ==== Sys2Proof/Machine/Assembler.lean ====
section
/-! DEFINITION. The assembly language that defines programs (30_encoding.md section 5, R57-R67): a two-pass
assembler from text lines to a program image. It is a toolchain function and no part of the core's state or
steps (C8). Text is a list of characters, so that the kernel can run it. -/

namespace Sys2Proof.Machine

/-- A token: a run of characters that are not whitespace (R57). -/
abbrev Token := List Char

/-- A line of the input (R57). -/
abbrev Line := List Char

/-- The labels bound so far, each with its instruction index (R59). -/
abbrev Labels := List (Token × Nat)

/-- The kinds of assembly error (R63). -/
inductive AsmErrorKind where
  | unknownOpcode
  | invalidOperand
  | operandRangeError
  | duplicateLabel
  | capacityError
  deriving DecidableEq, Repr

/-- An error with its line context: the 1-based line number and the line's text (R63). -/
structure AsmError where
  kind : AsmErrorKind
  lineNo : Nat
  line : Line
  deriving DecidableEq, Repr

/-- What a line is, judged by its first token (R57). -/
inductive LineKind where
  | blank
  | comment
  /-- the label's name is the whole first token, marker included -/
  | label (name : Token)
  /-- an instruction line: its first token and the others -/
  | code (first : Token) (rest : List Token)
  deriving DecidableEq, Repr

/-- A record of the output with the line it came from. -/
structure Emitted where
  record : Record
  lineNo : Nat
  line : Line
  deriving DecidableEq, Repr

/-! Names (R58). -/

/-- A mnemonic's name (R58). -/
def mnemonicName : Mnemonic → String
  | .add => "add"
  | .sub => "sub"
  | .imm => "imm"
  | .cmp => "cmp"
  | .stm => "stm"
  | .ldm => "ldm"
  | .jmp => "jmp"
  | .jne => "jne"
  | .jlt => "jlt"
  | .and => "and"
  | .orr => "orr"
  | .xor => "xor"
  | .not => "not"
  | .sys => "sys"
  | .mov => "mov"

/-- A register's name (R58). -/
def regName : Reg → String
  | .ra => "ra"
  | .rb => "rb"
  | .rc => "rc"
  | .rd => "rd"
  | .re => "re"
  | .rf => "rf"

/-- The mnemonic a token names, case-sensitively (R58). -/
def mnemonicNamed (t : Token) : Option Mnemonic :=
  Mnemonic.all.find? (fun m => (mnemonicName m).toList == t)

/-- The register a token names (R58). -/
def regNamed (t : Token) : Option Reg := Reg.all.find? (fun r => (regName r).toList == t)

/-- The syscall names with their selectors (R58, R87). -/
def selectorNames (p : Params) : List (Token × Byte) :=
  [("write".toList, p.sel.write), ("read".toList, p.sel.read), ("exit".toList, p.sel.exit)]

/-! Lines and tokens (R57). -/

/-- The comment marker (R57, D22). -/
def commentMarker : Char := '#'

/-- The label marker (R57, D22). -/
def labelMarker : Char := '<'

/-- The characters that separate tokens (DESIGN CHOICE: R57 says whitespace and lists none; entry 13). -/
def isSeparator (c : Char) : Bool := c == ' ' || c == '\t' || c == '\r' || c == '\n'

/-- The pieces of a text between separators, empty ones included; `cur` holds the current piece reversed. -/
def splitAtChars (sep : Char → Bool) : List Char → List Char → List (List Char)
  | [], cur => [cur.reverse]
  | c :: cs, cur =>
    if sep c then cur.reverse :: splitAtChars sep cs [] else splitAtChars sep cs (c :: cur)

/-- The tokens of a line, split at runs of whitespace (R57). -/
def tokensOf (l : Line) : List Token := (splitAtChars isSeparator l []).filter (fun t => t != [])

/-- The lines of a text (entry 13). -/
def linesOf (text : List Char) : List Line := splitAtChars (fun c => c == '\n') text []

/-- The kind of a line (R57). -/
def lineKind (l : Line) : LineKind :=
  match tokensOf l with
  | [] => .blank
  | t :: ts =>
    if t.head? = some commentMarker then .comment
    else if t.head? = some labelMarker then .label t
    else .code t ts

/-! Operands (R61, R62). -/

/-- The value of a decimal digit (R61, D23). -/
def digitValue (c : Char) : Option Nat :=
  if 48 ≤ c.toNat ∧ c.toNat ≤ 57 then some (c.toNat - 48) else none

/-- The number a run of decimal digits writes, after a value already read. -/
def digitsFrom : Nat → List Char → Option Nat
  | acc, [] => some acc
  | acc, c :: cs =>
    match digitValue c with
    | none => none
    | some d => digitsFrom (acc * 10 + d) cs

/-- One or more decimal digits (R61). -/
def parseDigits (t : List Char) : Option Nat :=
  match t with
  | [] => none
  | c :: cs => digitsFrom 0 (c :: cs)

/-- The integer syntax: an optional sign and one or more decimal digits (R61, D23). -/
def parseInteger (t : Token) : Option Int :=
  match t with
  | [] => none
  | c :: cs =>
    if c = '+' then (parseDigits cs).map (fun n => (n : Int))
    else if c = '-' then (parseDigits cs).map (fun n => -(n : Int))
    else (parseDigits (c :: cs)).map (fun n => (n : Int))

/-- A resolved value must lie in 0..255 (R62). -/
def operandByte (z : Int) : Except AsmErrorKind Byte :=
  if 0 ≤ z ∧ z ≤ 255 then .ok (BitVec.ofNat 8 z.toNat) else .error .operandRangeError

/-- An operand token's value, in the strict order register, syscall name, label, integer (R61). It does not
depend on the operand's kind. -/
def resolveToken (p : Params) (labels : Labels) (t : Token) : Except AsmErrorKind Byte :=
  match regNamed t with
  | some r => .ok (p.regCode.code r)
  | none =>
    match (selectorNames p).lookup t with
    | some v => .ok v
    | none =>
      match labels.lookup t with
      | some n => operandByte (n : Int)
      | none =>
        match parseInteger t with
        | some z => operandByte z
        | none => .error .invalidOperand

/-! The two passes (R59, R60). -/

/-- Pass 1: bind every label to the index of the next instruction; `k` is the line number and `n` the
instruction counter (R59). -/
def pass1 : Nat → Nat → Labels → List Line → Except AsmError Labels
  | _, _, labels, [] => .ok labels
  | k, n, labels, l :: ls =>
    match lineKind l with
    | .blank => pass1 (k + 1) n labels ls
    | .comment => pass1 (k + 1) n labels ls
    | .label t =>
      match labels.lookup t with
      | some _ => .error { kind := .duplicateLabel, lineNo := k, line := l }
      | none => pass1 (k + 1) n (labels ++ [(t, n)]) ls
    | .code t _ =>
      match mnemonicNamed t with
      | some _ => pass1 (k + 1) (n + 1) labels ls
      | none => pass1 (k + 1) n labels ls

/-- The record of an instruction line. Its errors come in the order mnemonic, token count, operand A,
operand B (R60, R63). -/
def assembleLine (p : Params) (labels : Labels) (first : Token) (rest : List Token) :
    Except AsmErrorKind Record :=
  match mnemonicNamed first with
  | none => .error .unknownOpcode
  | some m =>
    match rest with
    | [ta, tb] =>
      match resolveToken p labels ta with
      | .error e => .error e
      | .ok a =>
        match resolveToken p labels tb with
        | .error e => .error e
        | .ok b => .ok { op := p.opc.code m, a := a, b := b }
    | _ => .error .invalidOperand

/-- Pass 2: the records of the instruction lines, in line order (R60, R64). -/
def pass2 (p : Params) (labels : Labels) : Nat → List Line → Except AsmError (List Emitted)
  | _, [] => .ok []
  | k, l :: ls =>
    match lineKind l with
    | .blank => pass2 p labels (k + 1) ls
    | .comment => pass2 p labels (k + 1) ls
    | .label _ => pass2 p labels (k + 1) ls
    | .code t ts =>
      match assembleLine p labels t ts with
      | .error e => .error { kind := e, lineNo := k, line := l }
      | .ok r =>
        match pass2 p labels (k + 1) ls with
        | .error e => .error e
        | .ok es => .ok ({ record := r, lineNo := k, line := l } :: es)

/-- The image of a list of records (R47, R64). -/
def imageOf (es : List Emitted) : List Byte := es.flatMap (fun e => e.record.bytes)

/-- The records of a program text (R59, R60, R63). -/
def assembleRecords (p : Params) (lines : List Line) : Except AsmError (List Emitted) :=
  match pass1 1 0 [] lines with
  | .error e => .error e
  | .ok labels => pass2 p labels 1 lines

/-- The assembler: the image, zero-padded to SLOT_CAPACITY slots where one is given (R64, R65). The line
context of a CapacityError is the first instruction line that does not fit, and it is reported after every
error of the two passes (DESIGN CHOICE: entry 14). -/
def assemble (p : Params) (slotCapacity : Option Nat) (lines : List Line) : Except AsmError (List Byte) :=
  match assembleRecords p lines with
  | .error e => .error e
  | .ok es =>
    match slotCapacity with
    | none => .ok (imageOf es)
    | some k =>
      match es[k]? with
      | some e => .error { kind := .capacityError, lineNo := e.lineNo, line := e.line }
      | none => .ok (imageOf es ++ List.replicate (3 * (k - es.length)) 0x00)

/-- The assembler on a text, taken one line at a time (R57). -/
def assembleText (p : Params) (slotCapacity : Option Nat) (text : String) : Except AsmError (List Byte) :=
  assemble p slotCapacity (linesOf text.toList)

end Sys2Proof.Machine
end

