-- ==== Sys2Proof/Machine/HostInterface.lean ====
section
/-! DEFINITION. What the host does with a core: construct it, step it, run it under fuel, and read its end
(70_reset_and_hazards.md, R108-R119). -/

namespace Sys2Proof.Machine

/-- INIT_REGS, INIT_FLAGS and INIT_MEM (R6, R28, I10). `mem` lists the bytes of M from address 0; an address
it does not reach holds 0, and bytes past address 255 are not used (entry 10). -/
structure Init where
  regs : Regs
  flags : Flags
  mem : List Byte
  deriving DecidableEq, Repr

/-- The default construction values: all zero (R28; D10; entry 4). -/
def Init.default : Init := { regs := initRegs, flags := initFlags, mem := [] }

/-- construct(program_bytes, input_buffer, read_budget, write_budget) (R108). It is refused, with no
instance, when the image is not whole records or a budget is negative (R109; entry 12). -/
def construct (p : Params) (init : Init) (programBytes inputBuffer : List Byte)
    (readBudget writeBudget : Int) : Option State :=
  if imageWf programBytes = true ∧ 0 ≤ readBudget ∧ 0 ≤ writeBudget then
    some
      { regs := init.regs
        ip := 0
        flags := init.flags
        mem := Memory.ofBytes 0 (init.mem.take Config.memSize)
        imem := programBytes
        inBuf := inputBuffer
        rcur := 0
        rbud := readBudget.toNat
        wbud := writeBudget.toNat
        out := []
        hs := .running
        params := p }
  else none

/-- step() -> halted: the next state and the halted boolean (R112). The refused case does not arise. -/
def hostStep (s : State) : State × Bool :=
  match step s with
  | .next t => (t, t.halted)
  | .refused _ => (s, s.halted)

/-- run_to_completion() -> (output_bytes, final_register_state) under a bound on the number of steps; none
when the bound is used up, which is no halt of the core (R115, R116). -/
def runToCompletion : Nat → State → Option (List Byte × Regs)
  | 0, _ => none
  | fuel + 1, s =>
    match hostStep s with
    | (t, true) => some (t.out, t.regs)
    | (t, false) => runToCompletion fuel t

/-- The state after n steps (R112, R114). -/
def stepMany : Nat → State → State
  | 0, s => s
  | n + 1, s => stepMany n (hostStep s).1

end Sys2Proof.Machine
end

