-- ==== Sys2Proof/Safety.lean ====
section
/-! DEFINITION. The terms claims are stated in: the invariant of the core's states, what an instruction may
leave unchanged, what a raised fault leaves, and the cause of each fault. -/

namespace Sys2Proof.Machine

/-- What holds of every state the core reaches (R27, R92, R95, R109): memory is in its canonical form; the
cursor stays inside the input (R27 (f)); the image is whole records; the parameters are ones the spec
allows; a faulted core holds its kind's sentinel in ra; an exited core still holds the exit selector in ra. -/
structure State.Inv (s : State) : Prop where
  memCanonical : s.mem.wf = true
  cursorInInput : s.rcur ≤ s.inBuf.length
  wholeRecords : s.imem.length % 3 = 0
  paramsWf : s.params.Wf
  faultSentinel : ∀ k, s.hs = .fault k → s.reg .ra = sentinelOf s.params.err k
  exitSelector : s.hs = .exited → s.reg .ra = s.params.sel.exit

/-! What an instruction leaves unchanged. -/

/-- Every register but r is unchanged. -/
def SameRegsBut (r : Reg) (s t : State) : Prop := ∀ q, q ≠ r → t.reg q = s.reg q

/-- Every register is unchanged. -/
def SameRegs (s t : State) : Prop := ∀ q, t.reg q = s.reg q

/-- Every byte of data memory reads as before. -/
def SameMem (s t : State) : Prop := ∀ x, t.memRead x = s.memRead x

/-- Every byte of data memory but the one at an address reads as before. -/
def SameMemBut (addr : Byte) (s t : State) : Prop := ∀ x, x ≠ addr → t.memRead x = s.memRead x

/-- The I/O controller's cursor, budgets and output are unchanged (R23). -/
def SameIo (s t : State) : Prop :=
  t.rcur = s.rcur ∧ t.rbud = s.rbud ∧ t.wbud = s.wbud ∧ t.out = s.out

/-- What nothing writes after construction is unchanged: the instruction store (R22), the input buffer
(R23) and the parameters (R6). -/
def SameFixed (s t : State) : Prop :=
  t.imem = s.imem ∧ t.inBuf = s.inBuf ∧ t.params = s.params

/-- Nothing but register r and ip has changed. -/
def WroteReg (r : Reg) (s t : State) : Prop :=
  SameRegsBut r s t ∧ t.flags = s.flags ∧ SameMem s t ∧ SameIo s t ∧ SameFixed s t ∧ t.hs = s.hs

/-- Nothing but the flags and ip has changed. -/
def WroteFlags (s t : State) : Prop :=
  SameRegs s t ∧ SameMem s t ∧ SameIo s t ∧ SameFixed s t ∧ t.hs = s.hs

/-- Nothing but the byte at an address and ip has changed. -/
def WroteByte (addr : Byte) (s t : State) : Prop :=
  SameRegs s t ∧ t.flags = s.flags ∧ SameMemBut addr s t ∧ SameIo s t ∧ SameFixed s t ∧ t.hs = s.hs

/-- Nothing but ip has changed. -/
def WroteIp (s t : State) : Prop :=
  SameRegs s t ∧ t.flags = s.flags ∧ SameMem s t ∧ SameIo s t ∧ SameFixed s t ∧ t.hs = s.hs

/-- What `raise Fault(k)` leaves: the sentinel in ra, the kind in HS, and everything else, ip included, as
it was (R95, R97, R99). -/
def Raised (k : FaultKind) (s t : State) : Prop :=
  t.reg .ra = sentinelOf s.params.err k ∧ t.hs = .fault k ∧ t.ip = s.ip ∧ SameRegsBut .ra s t ∧
    t.flags = s.flags ∧ SameMem s t ∧ SameIo s t ∧ SameFixed s t

/-! Records and faults. -/

/-- The record at index ip of the instruction store, byte by byte (R35). -/
def AtIp (s : State) (r : Record) : Prop :=
  s.imem[3 * s.ip]? = some r.op ∧ s.imem[3 * s.ip + 1]? = some r.a ∧ s.imem[3 * s.ip + 2]? = some r.b

/-- A byte is no register's code (R50). -/
def NoRegister (p : Params) (c : Byte) : Prop := ∀ q, p.regCode.code q ≠ c

/-- An operand of the record has kind REG and is no register's code (R49, R56). -/
def BadOperand (p : Params) (m : Mnemonic) (r : Record) : Prop :=
  (kindA m = .reg ∧ NoRegister p r.a) ∨ (kindB m = .reg ∧ NoRegister p r.b)

/-- The encoding of an instruction with two register operands, and its fault where one of them is no
register's code, as every rule of format RR gives them. -/
def EncodesRR (m : Mnemonic) (mk : Reg → Reg → Instr) : Prop :=
  ∀ p : Params, p.Wf → ∀ a b : Byte,
    (∀ rA rB, p.regCode.code rA = a → p.regCode.code rB = b →
      decode p ⟨p.opc.code m, a, b⟩ = .ok (mk rA rB)) ∧
    (NoRegister p a ∨ NoRegister p b → decode p ⟨p.opc.code m, a, b⟩ = .error .badRegister)

/-- The encoding of imm: a register and a literal that is never checked (R71). -/
def EncodesRI (m : Mnemonic) (mk : Reg → Byte → Instr) : Prop :=
  ∀ p : Params, p.Wf → ∀ a b : Byte,
    (∀ rA, p.regCode.code rA = a → decode p ⟨p.opc.code m, a, b⟩ = .ok (mk rA b)) ∧
    (NoRegister p a → decode p ⟨p.opc.code m, a, b⟩ = .error .badRegister)

/-- The encoding of a branch: a literal target and a byte that is ignored (R83). -/
def EncodesIX (m : Mnemonic) (mk : Byte → Instr) : Prop :=
  ∀ p : Params, p.Wf → ∀ t any : Byte, decode p ⟨p.opc.code m, t, any⟩ = .ok (mk t)

/-- The encoding of an instruction both of whose operand bytes are ignored (R89, R94). -/
def EncodesXX (m : Mnemonic) (i : Instr) : Prop :=
  ∀ p : Params, p.Wf → ∀ any any' : Byte, decode p ⟨p.opc.code m, any, any'⟩ = .ok i

/-- The cause of each fault kind in a running core (R96), each including what rules out the kinds R98
puts before it. -/
def FaultCause (s : State) : FaultKind → Prop
  | .fetchRange => s.nslots ≤ s.ip
  | .badOpcode => ∃ r, AtIp s r ∧ ((∀ m, s.params.opc.code m ≠ r.op) ∨ s.params.opc.code .mov = r.op)
  | .badRegister => ∃ r m, AtIp s r ∧ s.params.opc.code m = r.op ∧ BadOperand s.params m r
  | .writeExhausted =>
    ∃ r, AtIp s r ∧ s.params.opc.code .sys = r.op ∧ s.reg .ra = s.params.sel.write ∧ s.wbud = 0
  | .readExhausted =>
    ∃ r, AtIp s r ∧ s.params.opc.code .sys = r.op ∧ s.reg .ra = s.params.sel.read ∧
      (s.rbud = 0 ∨ s.inBuf.length ≤ s.rcur)
  | .badSyscall =>
    ∃ r, AtIp s r ∧ s.params.opc.code .sys = r.op ∧ s.reg .ra ∉ s.params.sel.toList

/-! Pairs of states, for what a program cannot see. -/

/-- Two states that differ at most in the flags C and V (R26). -/
def SameButCarryOverflow (s s' : State) : Prop :=
  s' = { s with flags := s'.flags } ∧ s'.flags.s = s.flags.s ∧ s'.flags.z = s.flags.z

/-- Two states that differ at most in input bytes the read budget cannot reach. -/
def SameReachableInput (s s' : State) : Prop :=
  s' = { s with inBuf := s'.inBuf } ∧ ∀ k, k < s.rcur + s.rbud → s'.inBuf[k]? = s.inBuf[k]?

/-- The instruction lines of a text, with their tokens (R57). -/
def codeLines (lines : List Line) : List (Token × List Token) :=
  lines.filterMap fun l =>
    match lineKind l with
    | .code t ts => some (t, ts)
    | .blank => none
    | .comment => none
    | .label _ => none

end Sys2Proof.Machine
end

