-- ==== Sys2Proof/Certificates/Slice0/Obligations.lean ====
section
/-! DEFINITION. The statements for the provers. Each docstring names the rules it formalises; where a clause
rests on a choice the spec marks as its own (a decision D<n>) or on a log entry, it says so. -/

open Sys2Proof Sys2Proof.Machine

/-! Encoding. -/

/-- Decoding an encoded instruction gives it back, for every allowed choice of parameters and every operand
(R46, R49, R50, R53, R56); and so does the reading of opcode-table words under the defaults. The byte written
for an ignored operand is the model's choice (entry 11), that mov's record decodes, where R56 raises the fault
inside Decode, is the model's deduction (entry 6), and so is the table's bit numbering (entry 20). -/
def Obligations.DecodeOfEncodeIsIdentity : Prop :=
  (∀ p : Params, p.Wf → ∀ i : Instr, decode p (encode p i) = .ok i) ∧
    ∀ i : Instr, decodeTableWord 24 (encode Params.default i).tableWord = some i

/-- Every record that decodes carries the encoder's bytes wherever the operand is not ignored (R49, R56). That
mov's record decodes is the model's deduction (entry 6). -/
def Obligations.DecodedRecordCarriesItsEncoding : Prop :=
  ∀ (p : Params) (r : Record) (i : Instr), decode p r = .ok i →
    r.op = (encode p i).op ∧
    (kindA i.mnemonic = .reg ∨ kindA i.mnemonic = .lit → r.a = (encode p i).a) ∧
    (kindB i.mnemonic = .reg ∨ kindB i.mnemonic = .lit → r.b = (encode p i).b)

/-- Which records decode and which are refused, and by which name (R49, R50, R54, R56). That mov's record
decodes and faults in its meaning is the model's choice (entry 6). -/
def Obligations.DecodeClassifiesEveryRecord : Prop :=
  ∀ p : Params, p.Wf → ∀ r : Record,
    (decode p r = .error .badOpcode ↔ ∀ m, p.opc.code m ≠ r.op) ∧
    (decode p r = .error .badRegister ↔ ∃ m, p.opc.code m = r.op ∧ BadOperand p m r) ∧
    ((∃ i, decode p r = .ok i) ↔ r.wf p = true)

/-- An ignored operand byte changes nothing and is never refused (R52). -/
def Obligations.IgnoredOperandsDoNotMatter : Prop :=
  ∀ (p : Params), p.Wf → ∀ (m : Mnemonic) (a b a' b' : Byte),
    (kindA m ≠ .ign → a = a') → (kindB m ≠ .ign → b = b') →
    decode p ⟨p.opc.code m, a, b⟩ = decode p ⟨p.opc.code m, a', b'⟩ ∧
    (kindA m = .lit ∨ kindA m = .ign → kindB m = .ign → ∃ i, decode p ⟨p.opc.code m, a, b⟩ = .ok i)

/-- Words written out from the spec's encodings, one for each family, decode to the instructions they stand
for, and some illegal ones to none. The default tables are the spec's choices D2 and D3; that mov's word decodes,
where R56 raises the fault inside Decode, is the model's deduction (entry 6), and so is the bit numbering
(entry 20). -/
def Obligations.SpecWordsDecode : Prop :=
  decodeTableWord 24 0b000000010000000100000010 = some (.add .ra .rb) ∧
  decodeTableWord 24 0b000000110010000011111111 = some (.imm .rf 255) ∧
  decodeTableWord 24 0b000001000000010000100000 = some (.cmp .rc .rf) ∧
  decodeTableWord 24 0b000001010000001000001000 = some (.stm .rb .rd) ∧
  decodeTableWord 24 0b000001100001000000000010 = some (.ldm .re .rb) ∧
  decodeTableWord 24 0b000010001111111110011001 = some (.jne 255) ∧
  decodeTableWord 24 0b000011101110111011101110 = some .sys ∧
  decodeTableWord 24 0b000011110000000100000010 = some .mov ∧
  decodeTableWord 24 0b000000010000000101000000 = none ∧
  decodeTableWord 24 0b000000000000000000000000 = none

/-! Arithmetic and logic (40_arith_logic.md). -/

/-- R69 add: x[rA] becomes (x[rA] + x[rB]) mod 256 and nothing else but ip changes. -/
def Obligations.AddAddsModulo256 : Prop :=
  EncodesRR .add .add ∧
  ∀ (rA rB : Reg) (s : State), ∃ t, exec (.add rA rB) s = .next t ∧
    (t.reg rA).toNat = ((s.reg rA).toNat + (s.reg rB).toNat) % 256 ∧ t.ip = s.ip + 1 ∧ WroteReg rA s t

/-- R70 sub: x[rA] becomes (x[rA] + (256 - x[rB])) mod 256, which is x[rA] - x[rB] modulo 256. -/
def Obligations.SubSubtractsModulo256 : Prop :=
  EncodesRR .sub .sub ∧
  ∀ (rA rB : Reg) (s : State), ∃ t, exec (.sub rA rB) s = .next t ∧
    (t.reg rA).toNat = ((s.reg rA).toNat + (256 - (s.reg rB).toNat)) % 256 ∧
    t.reg rA = s.reg rA - s.reg rB ∧ t.ip = s.ip + 1 ∧ WroteReg rA s t

/-- R71 imm: x[rA] becomes the literal byte, whatever it is. -/
def Obligations.ImmLoadsLiteral : Prop :=
  EncodesRI .imm .imm ∧
  ∀ (rA : Reg) (lit : Byte) (s : State), ∃ t, exec (.imm rA lit) s = .next t ∧
    t.reg rA = lit ∧ t.ip = s.ip + 1 ∧ WroteReg rA s t

/-- R72 not: x[rA] becomes (256 - x[rB]) mod 256, the arithmetic negation. -/
def Obligations.NotNegatesModulo256 : Prop :=
  EncodesRR .not .not ∧
  ∀ (rA rB : Reg) (s : State), ∃ t, exec (.not rA rB) s = .next t ∧
    (t.reg rA).toNat = (256 - (s.reg rB).toNat) % 256 ∧ t.ip = s.ip + 1 ∧ WroteReg rA s t

/-- R73 and, R74 orr, R75 xor: each bit of x[rA] becomes the operation on that bit of x[rA] and x[rB]. -/
def Obligations.BitwiseOperationsActBitByBit : Prop :=
  EncodesRR .and .and ∧ EncodesRR .orr .orr ∧ EncodesRR .xor .xor ∧
  ∀ (rA rB : Reg) (s : State),
    (∃ t, exec (.and rA rB) s = .next t ∧ t.ip = s.ip + 1 ∧ WroteReg rA s t ∧
      ∀ n, n < 8 → (t.reg rA).getLsbD n = ((s.reg rA).getLsbD n && (s.reg rB).getLsbD n)) ∧
    (∃ t, exec (.orr rA rB) s = .next t ∧ t.ip = s.ip + 1 ∧ WroteReg rA s t ∧
      ∀ n, n < 8 → (t.reg rA).getLsbD n = ((s.reg rA).getLsbD n || (s.reg rB).getLsbD n)) ∧
    (∃ t, exec (.xor rA rB) s = .next t ∧ t.ip = s.ip + 1 ∧ WroteReg rA s t ∧
      ∀ n, n < 8 → (t.reg rA).getLsbD n = ((s.reg rA).getLsbD n ^^ (s.reg rB).getLsbD n))

/-! Compare (41_compare.md). -/

/-- R76, R78 cmp: the four flags take the source's formula of the two register values, whatever F was, and
nothing else but ip changes. That the stored sign is the result's is the spec's decision D7. -/
def Obligations.CmpComputesTheSourceFormula : Prop :=
  EncodesRR .cmp .cmp ∧
  ∀ (rA rB : Reg) (s : State), ∃ t, exec (.cmp rA rB) s = .next t ∧ t.ip = s.ip + 1 ∧ WroteFlags s t ∧
    ∀ r lo, r = (s.reg rA).toNat + (256 - (s.reg rB).toNat) → lo = r % 256 →
      t.flags.s = lo.testBit 7 ∧
      t.flags.c = r.testBit 8 ∧
      (t.flags.z = true ↔ lo = 0) ∧
      (t.flags.v = true ↔ (s.reg rA).toNat.testBit 7 = (s.reg rB).toNat.testBit 7 ∧
        lo.testBit 7 ≠ (s.reg rA).toNat.testBit 7)

/-- R79: after a cmp of A and B, Z is A = B, C is A ≥ B unsigned, S is bit 7 of A - B, and V follows the two
sign cases (derived in the spec; the sign is D7). -/
def Obligations.CompareFlagsRelateToOperands : Prop :=
  ∀ (rA rB : Reg) (s t : State), exec (.cmp rA rB) s = .next t →
    (t.flags.z = true ↔ s.reg rA = s.reg rB) ∧
    (t.flags.c = true ↔ (s.reg rB).toNat ≤ (s.reg rA).toNat) ∧
    t.flags.s = (s.reg rA - s.reg rB).getLsbD 7 ∧
    ((s.reg rA).toNat < 128 → (s.reg rB).toNat < 128 →
      (t.flags.v = true ↔ (s.reg rA).toNat < (s.reg rB).toNat)) ∧
    (128 ≤ (s.reg rA).toNat → 128 ≤ (s.reg rB).toNat →
      (t.flags.v = true ↔ (s.reg rB).toNat ≤ (s.reg rA).toNat)) ∧
    ((s.reg rA).getLsbD 7 ≠ (s.reg rB).getLsbD 7 → t.flags.v = false)

/-- R18, R77: F as a number is the sum of the four flags at their positions, and each flag can be read back
from its position (the default positions are the spec's decision D6; this holds for every distinct ones). -/
def Obligations.FlagsPackIntoFourBits : Prop :=
  ∀ s : State, s.params.FlagPositionsDistinct →
    s.flagsNumber.toNat = s.flags.s.toNat * 2 ^ s.params.fpos.s.val + s.flags.c.toNat * 2 ^ s.params.fpos.c.val +
      s.flags.z.toNat * 2 ^ s.params.fpos.z.val + s.flags.v.toNat * 2 ^ s.params.fpos.v.val ∧
    s.flagsNumber.getLsbD s.params.fpos.s.val = s.flags.s ∧
    s.flagsNumber.getLsbD s.params.fpos.c.val = s.flags.c ∧
    s.flagsNumber.getLsbD s.params.fpos.z.val = s.flags.z ∧
    s.flagsNumber.getLsbD s.params.fpos.v.val = s.flags.v

/-! Memory (42_memory_ops.md). -/

/-- R81 stm: the byte at the address x[rA] becomes x[rB]; every other byte, every register and F are as
before. The premise rules out memories no run reaches (EveryStepKeepsTheInvariant). -/
def Obligations.StmStoresOneByte : Prop :=
  EncodesRR .stm .stm ∧
  ∀ (rA rB : Reg) (s : State), ∃ t, exec (.stm rA rB) s = .next t ∧ t.ip = s.ip + 1 ∧
    WroteByte (storeAddress s rA) s t ∧ storeAddress s rA = s.reg rA ∧
    (s.mem.wf = true → t.memRead (storeAddress s rA) = s.reg rB)

/-- R82 ldm: rA takes the byte of M at the address x[rB], read before rA is written. -/
def Obligations.LdmLoadsOneByte : Prop :=
  EncodesRR .ldm .ldm ∧
  ∀ (rA rB : Reg) (s : State), ∃ t, exec (.ldm rA rB) s = .next t ∧ t.ip = s.ip + 1 ∧
    WroteReg rA s t ∧ t.reg rA = s.memRead (s.reg rB)

/-- R42: an ldm of an address returns the byte the last stm to it wrote, and an ldm of another address
returns what it would have without the stm (R33, R34). -/
def Obligations.LoadReturnsTheStoredByte : Prop :=
  ∀ (rA rB rC rD : Reg) (s t u : State), s.mem.wf = true →
    exec (.stm rA rB) s = .next t → exec (.ldm rC rD) t = .next u →
    (s.reg rD = s.reg rA → u.reg rC = s.reg rB) ∧
    (s.reg rD ≠ s.reg rA → exec (.ldm rC rD) s = .next { u with mem := s.mem, ip := s.ip + 1 })

/-! Branches (43_branch.md). -/

/-- R84 jmp: ip becomes the literal target and nothing else changes. -/
def Obligations.JmpSetsIp : Prop :=
  EncodesIX .jmp .jmp ∧
  ∀ (target : Byte) (s : State), ∃ t, exec (.jmp target) s = .next t ∧ t.ip = target.toNat ∧ WroteIp s t

/-- R85 jne: branches to the literal target if the zero flag is SET, else falls through. -/
def Obligations.JneBranchesOnZero : Prop :=
  EncodesIX .jne .jne ∧
  ∀ (target : Byte) (s : State), ∃ t, exec (.jne target) s = .next t ∧
    t.ip = (if s.flags.z = true then target.toNat else s.ip + 1) ∧ WroteIp s t

/-- R86 jlt: branches if JLT_COND holds of the flags, where JLT_COND is the core's parameter, read at the
flags' own entry; under the default it is the sign flag (the spec's decision D8; entry 9). -/
def Obligations.JltBranchesOnItsCondition : Prop :=
  EncodesIX .jlt .jlt ∧
  ∀ (target : Byte) (s : State), ∃ t, exec (.jlt target) s = .next t ∧ WroteIp s t ∧
    t.ip = (if s.params.jltCond.getLsbD
        (s.flags.s.toNat + 2 * s.flags.c.toNat + 4 * s.flags.z.toNat + 8 * s.flags.v.toNat) = true
      then target.toNat else s.ip + 1) ∧
    (s.params.jltCond = Params.default.jltCond →
      t.ip = (if s.flags.s = true then target.toNat else s.ip + 1))

/-! System call (44_syscall.md). -/

/-- R88, R89 sys: it decodes whatever its operand bytes are, and dispatches on the value of ra at its start
to write, read, exit or the BAD_SYSCALL fault. -/
def Obligations.SysDispatchesOnFirstRegister : Prop :=
  EncodesXX .sys .sys ∧
  ∀ s : State, s.params.SelectorsDistinct →
    (s.reg .ra = s.params.sel.write → exec .sys s = .next (sysWrite s)) ∧
    (s.reg .ra = s.params.sel.read → exec .sys s = .next (sysRead s)) ∧
    (s.reg .ra = s.params.sel.exit → exec .sys s = .next (haltExit s)) ∧
    (s.reg .ra ∉ s.params.sel.toList → exec .sys s = .next (raiseFault .badSyscall s))

/-- R90 write: with budget left, sys emits rb, spends one unit of the budget and goes on; with none it raises
WRITE_EXHAUSTED and emits nothing. (That a fault leaves ip is D13, and that HS records it D28.) -/
def Obligations.SysWriteEmitsOrFaults : Prop :=
  ∀ s : State, s.reg .ra = s.params.sel.write →
    (s.wbud ≠ 0 → ∃ t, exec .sys s = .next t ∧ t.out = s.out ++ [s.reg .rb] ∧ t.wbud + 1 = s.wbud ∧
      t.ip = s.ip + 1 ∧ SameRegs s t ∧ t.flags = s.flags ∧ SameMem s t ∧ t.rcur = s.rcur ∧ t.rbud = s.rbud ∧
      SameFixed s t ∧ t.hs = s.hs) ∧
    (s.wbud = 0 → ∃ t, exec .sys s = .next t ∧ Raised .writeExhausted s t)

/-- R91 read: with budget and input left, sys takes the next input byte into ra; with either used up it
raises READ_EXHAUSTED (the used-up input is the spec's decision D15, and that a fault leaves ip D13). -/
def Obligations.SysReadTakesInputOrFaults : Prop :=
  ∀ s : State, s.params.SelectorsDistinct → s.reg .ra = s.params.sel.read →
    (∀ v, s.rbud ≠ 0 → s.inBuf[s.rcur]? = some v → ∃ t, exec .sys s = .next t ∧ t.reg .ra = v ∧
      t.rcur = s.rcur + 1 ∧ t.rbud + 1 = s.rbud ∧ t.ip = s.ip + 1 ∧ SameRegsBut .ra s t ∧ t.flags = s.flags ∧
      SameMem s t ∧ t.wbud = s.wbud ∧ t.out = s.out ∧ SameFixed s t ∧ t.hs = s.hs) ∧
    (s.rbud = 0 ∨ s.inBuf.length ≤ s.rcur → ∃ t, exec .sys s = .next t ∧ Raised .readExhausted s t)

/-- R92 exit: HS becomes EXITED and nothing else changes (ip included: D13). -/
def Obligations.SysExitHaltsAndChangesNothingElse : Prop :=
  ∀ s : State, s.params.SelectorsDistinct → s.reg .ra = s.params.sel.exit →
    ∃ t, exec .sys s = .next t ∧ t.hs = .exited ∧ t.ip = s.ip ∧ SameRegs s t ∧ t.flags = s.flags ∧
      SameMem s t ∧ SameIo s t ∧ SameFixed s t

/-- R93: any other selector raises BAD_SYSCALL; and every sentinel is such a selector.
(That a fault leaves ip is the spec's decision D13.) -/
def Obligations.SysUnknownSelectorFaults : Prop :=
  ∀ s : State,
    (s.reg .ra ∉ s.params.sel.toList → ∃ t, exec .sys s = .next t ∧ Raised .badSyscall s t) ∧
    (s.params.SelectorsNotSentinels → ∀ k, s.reg .ra = sentinelOf s.params.err k →
      ∃ t, exec .sys s = .next t ∧ Raised .badSyscall s t)

/-! Reserved (45_reserved.md). -/

/-- R94 mov: decodes whatever its operand bytes are, and always raises BAD_OPCODE (the spec's decision D9;
that its record decodes is the model's deduction, entry 6; that a fault leaves ip is D13). -/
def Obligations.MovRaisesBadOpcode : Prop :=
  EncodesXX .mov .mov ∧
  ∀ s : State, ∃ t, exec .mov s = .next t ∧ Raised .badOpcode s t

/-! The step (60_exceptions.md, 70_reset_and_hazards.md). -/

/-- R112: a running core whose record at index ip decodes to an instruction executes exactly it. -/
def Obligations.StepRunsTheDecodedInstruction : Prop :=
  ∀ (s : State) (r : Record) (i : Instr), s.hs = .running → AtIp s r → decode s.params r = .ok i →
    step s = exec i s

/-- The record stored where the next step fetches is the one that step runs, from any state (entry 19; the
word's bit numbering is entry 20). -/
def Obligations.LoadedWordIsExecuted : Prop :=
  ∀ (s : State) (nbits w : Nat) (i : Instr), decode s.params (recordOfTableWord nbits w) = .ok i →
    step (s.withFetchWord nbits w) = exec i (s.withFetchWord nbits w)

/-- R114: a step of a halted core changes nothing and returns true (the spec's decision D14). -/
def Obligations.HaltedCoreIsAbsorbing : Prop :=
  ∀ s : State, s.hs ≠ .running → step s = .next s ∧ hostStep s = (s, true) ∧ ∀ n, stepMany n s = s

/-- R35, R96: a running core whose ip is at or past NSLOTS raises FETCH_RANGE (the spec's decision D12; that a fault
leaves ip is D13). -/
def Obligations.FetchPastTheImageFaults : Prop :=
  ∀ s : State, s.hs = .running → s.nslots ≤ s.ip → ∃ t, step s = .next t ∧ Raised .fetchRange s t

/-- R54, R56, R96: a running core raises BAD_OPCODE on a record whose opcode is no mnemonic's, and
BAD_REGISTER on one whose opcode is but whose register operand is no register's code (that a fault leaves ip
is the spec's decision D13). -/
def Obligations.UndecodableRecordFaults : Prop :=
  ∀ (s : State) (r : Record), s.hs = .running → AtIp s r →
    ((∀ m, s.params.opc.code m ≠ r.op) → ∃ t, step s = .next t ∧ Raised .badOpcode s t) ∧
    (s.params.OpcodesDistinct → ∀ m, s.params.opc.code m = r.op → BadOperand s.params m r →
      ∃ t, step s = .next t ∧ Raised .badRegister s t)

/-- R96, R98: a step of a running core raises a fault of kind k exactly on k's cause, and exits exactly on a
sys with the exit selector. The order, FETCH_RANGE, the read underrun and mov's fault are the spec's decisions D19, D12,
D15 and D9. -/
def Obligations.StepFaultsExactlyOnTheirCauses : Prop :=
  ∀ s t : State, s.hs = .running → s.params.Wf → step s = .next t →
    (∀ k, t.hs = .fault k ↔ FaultCause s k) ∧
    (t.hs = .exited ↔ ∃ r, AtIp s r ∧ s.params.opc.code .sys = r.op ∧ s.reg .ra = s.params.sel.exit)

/-- R97, R99: faults are precise. Whatever raised it, a fault leaves its sentinel in ra, its kind in HS, and
everything else as it was before the step (ip: the spec's decision D13). -/
def Obligations.FaultsArePrecise : Prop :=
  ∀ (s t : State) (k : FaultKind), s.hs = .running → step s = .next t → t.hs = .fault k → Raised k s t

/-- Every step of every state answers a next state: no step stops outside the spec's halts (R95, R112;
entry 7). -/
def Obligations.EveryStepAnswersANextState : Prop :=
  ∀ s : State, ∃ t, step s = .next t ∧ hostStep s = (t, decide (t.hs ≠ .running))

/-! Rules about the whole machine. -/

/-- The invariant holds right after reset, and of every core the host can construct with allowed parameters
(R27, R28, R108; the reset values of the host's inputs are the model's choice, entry 3). -/
def Obligations.InvariantHoldsAtConstruction : Prop :=
  State.reset.Inv ∧
  ∀ (p : Params) (init : Init) (image input : List Byte) (rb wb : Int) (s : State),
    p.Wf → construct p init image input rb wb = some s → s.Inv

/-- Every step keeps the invariant: canonical memory, cursor inside the input, whole records, allowed
parameters, and the sentinel or the exit selector in ra once halted (R27, R92, R95). -/
def Obligations.EveryStepKeepsTheInvariant : Prop :=
  ∀ s t : State, s.Inv → step s = .next t → t.Inv

/-- R27 (d), (e): the budgets never increase, and RBUD + RCUR and WBUD + #OUT are constant. -/
def Obligations.BudgetsAreConserved : Prop :=
  ∀ s t : State, step s = .next t →
    t.rbud ≤ s.rbud ∧ t.wbud ≤ s.wbud ∧ t.rbud + t.rcur = s.rbud + s.rcur ∧
    t.wbud + t.out.length = s.wbud + s.out.length

/-- R27 in every state a constructed core reaches: (a) bytes are in 0..255, (b) F is in 0..15, (c) a running
core has a valid slot or faults next, (d) the budgets never increase from there on, (e) the sums are the
budgets given at construction, (f) RCUR ≤ #IN, (g) once halted, no state changes. Clauses (a) and (b) hold by the
types of the state; (c) rests on the spec's decision D12 and (g) on D14. -/
def Obligations.ReachedStatesKeepR27 : Prop :=
  ∀ (p : Params) (init : Init) (image input : List Byte) (rb wb : Int) (s : State) (n : Nat),
    construct p init image input rb wb = some s →
    ∀ u, u = stepMany n s →
      (∀ q, (u.reg q).toNat ≤ 255) ∧ (∀ x, (u.memRead x).toNat ≤ 255) ∧
      u.flagsNumber.toNat ≤ 15 ∧
      (u.hs = .running → u.ip < u.nslots ∨ ∃ t, step u = .next t ∧ Raised .fetchRange u t) ∧
      (∀ m, (stepMany m u).rbud ≤ u.rbud ∧ (stepMany m u).wbud ≤ u.wbud) ∧
      (u.rbud + u.rcur : Int) = rb ∧ (u.wbud + u.out.length : Int) = wb ∧
      u.rcur ≤ u.inBuf.length ∧
      (u.hs ≠ .running → ∀ m, stepMany m u = u)

/-- R19: only cmp writes F, and what cmp writes does not depend on what F was. -/
def Obligations.OnlyCmpWritesFlags : Prop :=
  (∀ (i : Instr) (s t : State), exec i s = .next t → t.flags ≠ s.flags → ∃ rA rB, i = .cmp rA rB) ∧
  (∀ (rA rB : Reg) (s t : State) (f : Flags), exec (.cmp rA rB) s = .next t →
    exec (.cmp rA rB) { s with flags := f } = .next t)

/-- R20: only the branches read F: jne through Z alone, jlt (under its default, the spec's decision D8)
through S alone; what every other instruction does is the same whatever F holds. -/
def Obligations.OnlyBranchesReadFlags : Prop :=
  (∀ (i : Instr) (s t : State) (f : Flags), (∀ b, i ≠ .jne b ∧ i ≠ .jlt b) → exec i s = .next t →
    ∃ g, exec i { s with flags := f } = .next { t with flags := g } ∧ (g = f ∨ g = t.flags)) ∧
  (∀ (b : Byte) (s t : State) (f : Flags), f.z = s.flags.z → exec (.jne b) s = .next t →
    exec (.jne b) { s with flags := f } = .next { t with flags := f }) ∧
  (∀ (b : Byte) (s t : State) (f : Flags), s.params.jltCond = Params.default.jltCond → f.s = s.flags.s →
    exec (.jlt b) s = .next t → exec (.jlt b) { s with flags := f } = .next { t with flags := f })

/-- R36: only stm changes data memory, and only ldm's effect depends on it. Under any other memory m in place
of the old one, an instruction other than ldm and stm answers the same state with m kept whole; and a stm
answers the same state with m written at the same address with the same byte, both taken from registers. -/
def Obligations.OnlyStmWritesAndOnlyLdmReadsMemory : Prop :=
  (∀ (i : Instr) (s t : State), exec i s = .next t → (∀ rA rB, i ≠ .stm rA rB) → SameMem s t) ∧
  (∀ (i : Instr) (s t : State) (m : Memory), exec i s = .next t →
    (∀ rA rB, i ≠ .ldm rA rB ∧ i ≠ .stm rA rB) →
    exec i { s with mem := m } = .next { t with mem := m }) ∧
  (∀ (rA rB : Reg) (s t : State) (m : Memory), exec (.stm rA rB) s = .next t →
    exec (.stm rA rB) { s with mem := m } =
      .next { t with mem := m.write (storeAddress s rA).toNat (s.reg rB) })

/-- R15: a register changes only if it is the one operand A names, in one of the eight instructions that
write it, or it is ra, in sys or in a fault. -/
def Obligations.OnlyTheListedInstructionsWriteRegisters : Prop :=
  ∀ (i : Instr) (s t : State) (q : Reg), exec i s = .next t → t.reg q ≠ s.reg q →
    (∃ rB, i = .add q rB ∨ i = .sub q rB ∨ i = .not q rB ∨ i = .and q rB ∨ i = .orr q rB ∨ i = .xor q rB ∨
      i = .ldm q rB) ∨
    (∃ lit, i = .imm q lit) ∨
    (q = .ra ∧ i = .sys) ∨
    (q = .ra ∧ i = .mov)

/-- R17: a non-jump instruction that does not halt advances ip by one, and a halting one leaves ip (the
latter is the spec's decision D13). -/
def Obligations.InstructionPointerAdvances : Prop :=
  ∀ (i : Instr) (s t : State), s.hs = .running → exec i s = .next t →
    (t.hs = .running → (∀ b, i ≠ .jmp b ∧ i ≠ .jne b ∧ i ≠ .jlt b) → t.ip = s.ip + 1) ∧
    (t.hs ≠ .running → t.ip = s.ip)

/-- R22, R23, R44: no step writes the instruction store or the input buffer; and none changes the
parameters (entry 1). The store being out of a program's reach is the spec's decision D18. -/
def Obligations.StoreInputAndParametersNeverChange : Prop :=
  ∀ (s t : State) (n : Nat), t = stepMany n s → SameFixed s t

/-- R23: OUT is append-only. A step leaves it or appends rb, and then it was a sys with the write selector
and a budget, which fell by one. -/
def Obligations.OutputGrowsOnlyByWrite : Prop :=
  ∀ s t : State, s.params.OpcodesDistinct → step s = .next t →
    t.out = s.out ∨
    (t.out = s.out ++ [s.reg .rb] ∧ t.wbud + 1 = s.wbud ∧ s.hs = .running ∧
      s.reg .ra = s.params.sel.write ∧ ∃ r, AtIp s r ∧ r.op = s.params.opc.code .sys)

/-- R26: a program never sees C and V. From two states that differ only in them, the core reaches states
that differ at most in them, after any number of steps, whenever JLT_COND reads neither (as its default does
not: the spec's decision D8). -/
def Obligations.CarryAndOverflowAreInvisible : Prop :=
  ∀ (s s' : State) (n : Nat),
    (∀ f g : Flags, f.s = g.s → f.z = g.z → jltTaken s.params f = jltTaken s.params g) →
    SameButCarryOverflow s s' → SameButCarryOverflow (stepMany n s) (stepMany n s')

/-- R26, R91: a program never sees input its read budget cannot reach. From two states that differ only in
such input bytes, the core reaches states that differ only in them, after any number of steps. -/
def Obligations.UnreachableInputIsInvisible : Prop :=
  ∀ (s s' : State) (n : Nat), SameReachableInput s s' →
    SameReachableInput (stepMany n s) (stepMany n s')

/-! Construction and runs (R108-R116). -/

/-- R28, R108: construction gives every piece of state its value: the image, the input and the budgets the
host supplies, the values INIT_* for registers, flags and memory, and 0, empty or RUNNING for the rest.
(The defaults of INIT_* and the start of RCUR are the spec's decision D10, and the start of ip is D11.) -/
def Obligations.ConstructionGivesEveryValue : Prop :=
  ∀ (p : Params) (init : Init) (image input : List Byte) (rb wb : Int) (s : State),
    construct p init image input rb wb = some s →
    s.regs = init.regs ∧ s.flags = init.flags ∧ (∀ x : Byte, s.memRead x = init.mem.getD x.toNat 0) ∧
    s.ip = 0 ∧ s.imem = image ∧ s.nslots = image.length / 3 ∧ s.inBuf = input ∧ s.rcur = 0 ∧
    (s.rbud : Int) = rb ∧ (s.wbud : Int) = wb ∧ s.out = [] ∧ s.hs = .running ∧ s.params = p

/-- R109: construction is refused exactly when the image is not whole records or a budget is negative (the
spec's decision D17); the empty image is allowed, and its first step raises FETCH_RANGE (D12). -/
def Obligations.ConstructionIsRefusedExactly : Prop :=
  ∀ (p : Params) (init : Init) (image input : List Byte) (rb wb : Int),
    (construct p init image input rb wb = none ↔ image.length % 3 ≠ 0 ∨ rb < 0 ∨ wb < 0) ∧
    (∀ s, construct p init [] input rb wb = some s → ∃ t, step s = .next t ∧ Raised .fetchRange s t)

/-- R115, R116: run_to_completion returns OUT and the registers of a state in which the core has halted,
exactly when it halts within the bound (that these registers are the final register state is the spec's
decision D28). -/
def Obligations.RunReturnsTheHaltedState : Prop :=
  ∀ (s : State) (fuel : Nat) (result : List Byte × Regs),
    runToCompletion fuel s = some result ↔
      ∃ k, 1 ≤ k ∧ k ≤ fuel ∧ (stepMany k s).hs ≠ .running ∧
        result = ((stepMany k s).out, (stepMany k s).regs)

/-- R27 (e), R90: whatever the program and the input, a run outputs at most write_budget bytes. -/
def Obligations.OutputIsBoundedByTheWriteBudget : Prop :=
  ∀ (p : Params) (init : Init) (image input : List Byte) (rb wb : Int) (s : State) (fuel : Nat)
    (output : List Byte) (regs : Regs),
    construct p init image input rb wb = some s → runToCompletion fuel s = some (output, regs) →
    (output.length : Int) ≤ wb

/-! Assembly (30_encoding.md section 5). -/

/-- R64: a successful assembly without a capacity gives 3·N bytes for the N instruction lines: the records
of those lines in line order. -/
def Obligations.AssemblyEmitsOneRecordPerInstructionLine : Prop :=
  ∀ (p : Params) (lines : List Line) (image : List Byte), assemble p none lines = .ok image →
    ∃ (labels : Labels) (records : List Record),
      pass1 1 0 [] lines = .ok labels ∧ records.length = (codeLines lines).length ∧
      image = records.flatMap Record.bytes ∧ image.length = 3 * (codeLines lines).length ∧
      ∀ (j : Nat) (t : Token) (ts : List Token), (codeLines lines)[j]? = some (t, ts) →
        ∃ r, records[j]? = some r ∧ assembleLine p labels t ts = .ok r

/-- R65: with a capacity K the image is the unpadded one and zero bytes up to 3·K, and more than K records
fail with CapacityError. That they fail so is the spec's decision D26 (entry 26). -/
def Obligations.PaddingFillsTheCapacity : Prop :=
  ∀ (p : Params) (lines : List Line) (image : List Byte) (k : Nat), assemble p none lines = .ok image →
    (image.length ≤ 3 * k →
      ∃ zeros, assemble p (some k) lines = .ok (image ++ zeros) ∧ (image ++ zeros).length = 3 * k ∧
        ∀ z ∈ zeros, z = 0) ∧
    (3 * k < image.length → ∃ e, assemble p (some k) lines = .error e ∧ e.kind = .capacityError)

/-- R61, R62: a token is resolved as a register, else a syscall name, else a label, else an integer, and a
label's index or an integer outside 0..255 fails with OperandRangeError. What is an integer, the syntax
parseInteger reads, is the spec's decision D23 (entry 26). -/
def Obligations.OperandTokensResolveInOrder : Prop :=
  ∀ (p : Params) (labels : Labels) (t : Token),
    (∀ r, regNamed t = some r → resolveToken p labels t = .ok (p.regCode.code r)) ∧
    (regNamed t = none →
      (∀ v, (selectorNames p).lookup t = some v → resolveToken p labels t = .ok v) ∧
      ((selectorNames p).lookup t = none →
        ∀ z : Int, (labels.lookup t).map Int.ofNat = some z ∨ (labels.lookup t = none ∧ parseInteger t = some z) →
          (∀ b : Byte, (b.toNat : Int) = z → resolveToken p labels t = .ok b) ∧
          (z < 0 ∨ 255 < z → resolveToken p labels t = .error .operandRangeError)) ∧
      ((selectorNames p).lookup t = none → labels.lookup t = none → parseInteger t = none →
        resolveToken p labels t = .error .invalidOperand))
end

