-- ==== Sys2Proof/Laws/Assembler.lean ====
section
/-! SUPPORT. What the passes of the assembler answer. -/

namespace Sys2Proof.Machine

/-- An image has three bytes for each record (R46, R64). -/
theorem imageOf_length (es : List Emitted) : (imageOf es).length = 3 * es.length := by
  induction es with
  | nil => rfl
  | cons e es ih =>
    simp only [imageOf, List.flatMap_cons, List.length_append, List.length_cons] at *
    rw [ih]
    simp only [Record.bytes, List.length_cons, List.length_nil]
    omega

/-- What pass 2 emits: one record for each instruction line, in order (R60). -/
theorem pass2_records {p : Params} {labels : Labels} {lines : List Line} {k : Nat} {es : List Emitted}
    (h : pass2 p labels k lines = .ok es) :
    es.length = (codeLines lines).length ∧
      ∀ (j : Nat) (t : Token) (ts : List Token), (codeLines lines)[j]? = some (t, ts) →
        ∃ e, es[j]? = some e ∧ assembleLine p labels t ts = .ok e.record := by
  induction lines generalizing k es with
  | nil =>
    simp only [pass2] at h
    cases h
    simp [codeLines]
  | cons l ls ih =>
    unfold pass2 at h
    split at h <;> rename_i hl
    · simpa [codeLines, hl] using ih h
    · simpa [codeLines, hl] using ih h
    · simpa [codeLines, hl] using ih h
    · rename_i t ts
      split at h
      · cases h
      · rename_i r hr
        split at h
        · cases h
        · rename_i es' hes
          cases h
          have hcl : codeLines (l :: ls) = (t, ts) :: codeLines ls := by simp [codeLines, hl]
          rw [hcl]
          refine ⟨by simp [(ih hes).1], fun j t' ts' hj => ?_⟩
          cases j with
          | zero =>
            simp only [List.getElem?_cons_zero, Option.some.injEq, Prod.mk.injEq] at hj
            obtain ⟨rfl, rfl⟩ := hj
            exact ⟨_, rfl, hr⟩
          | succ j =>
            simp only [List.getElem?_cons_succ] at hj ⊢
            exact (ih hes).2 j t' ts' hj

end Sys2Proof.Machine
end

