-- ==== Sys2Proof/Laws/Decode.lean ====
section
/-! SUPPORT. The lookups of register codes and opcodes, and what a decoded or refused record is. -/

namespace Sys2Proof

theorem mem_regs (r : Reg) : r ∈ Reg.all := by cases r <;> decide

theorem mem_mnemonics (m : Mnemonic) : m ∈ Mnemonic.all := by cases m <;> decide

/-- A byte that decodes to a register is that register's code (R50). -/
theorem code_of_regOf {p : Params} {c : Byte} {r : Reg} (h : regOf p c = some r) : p.regCode.code r = c := by
  simpa using List.find?_some h

/-- A byte decodes to no register exactly when it is no register's code (R50). -/
theorem regOf_eq_none {p : Params} {c : Byte} : regOf p c = none ↔ ∀ r, p.regCode.code r ≠ c := by
  simp [regOf, List.find?_eq_none, mem_regs]

/-- An opcode byte selects the mnemonic whose opcode it is (R53). -/
theorem code_of_mnemonicOf {p : Params} {op : Byte} {m : Mnemonic} (h : mnemonicOf p op = some m) :
    p.opc.code m = op := by
  simpa using List.find?_some h

/-- An opcode byte is illegal exactly when it is no mnemonic's (R54). -/
theorem mnemonicOf_eq_none {p : Params} {op : Byte} : mnemonicOf p op = none ↔ ∀ m, p.opc.code m ≠ op := by
  simp [mnemonicOf, List.find?_eq_none, mem_mnemonics]

/-- REG_CODE injective: two registers with one code are one register. -/
theorem regCode_inj {p : Params} (hp : p.RegCodesDistinct) {q r : Reg}
    (h : p.regCode.code q = p.regCode.code r) : q = r :=
  List.inj_on_of_nodup_map hp (mem_regs q) (mem_regs r) h

/-- OPC injective: two mnemonics with one opcode are one mnemonic. -/
theorem opcode_inj {p : Params} (hp : p.OpcodesDistinct) {m n : Mnemonic}
    (h : p.opc.code m = p.opc.code n) : m = n :=
  List.inj_on_of_nodup_map hp (mem_mnemonics m) (mem_mnemonics n) h

/-- A register's code decodes to it (R50). -/
@[simp] theorem regOf_code {p : Params} (hp : p.RegCodesDistinct) (r : Reg) :
    regOf p (p.regCode.code r) = some r := by
  cases h : regOf p (p.regCode.code r) with
  | none => exact absurd rfl (regOf_eq_none.1 h r)
  | some q => rw [regCode_inj hp (code_of_regOf h)]

/-- A mnemonic's opcode selects it (R53). -/
@[simp] theorem mnemonicOf_code {p : Params} (hp : p.OpcodesDistinct) (m : Mnemonic) :
    mnemonicOf p (p.opc.code m) = some m := by
  cases h : mnemonicOf p (p.opc.code m) with
  | none => exact absurd rfl (mnemonicOf_eq_none.1 h m)
  | some n => rw [opcode_inj hp (code_of_mnemonicOf h)]

/-- What a record of two register operands decodes to (R56). -/
theorem decodeRR_cases (p : Params) (r : Record) (mk : Reg → Reg → Instr) :
    (∃ rA rB, regOf p r.a = some rA ∧ regOf p r.b = some rB ∧ decodeRR p r mk = .ok (mk rA rB)) ∨
      ((regOf p r.a = none ∨ regOf p r.b = none) ∧ decodeRR p r mk = .error .badRegister) := by
  unfold decodeRR
  cases ha : regOf p r.a with
  | none => exact .inr ⟨.inl rfl, rfl⟩
  | some rA =>
    cases hb : regOf p r.b with
    | none => exact .inr ⟨.inr rfl, rfl⟩
    | some rB => exact .inl ⟨rA, rB, rfl, rfl, rfl⟩

/-- What a record of a register operand and a literal decodes to (R56). -/
theorem decodeRI_cases (p : Params) (r : Record) (mk : Reg → Byte → Instr) :
    (∃ rA, regOf p r.a = some rA ∧ decodeRI p r mk = .ok (mk rA r.b)) ∨
      (regOf p r.a = none ∧ decodeRI p r mk = .error .badRegister) := by
  unfold decodeRI
  cases ha : regOf p r.a with
  | none => exact .inr ⟨rfl, rfl⟩
  | some rA => exact .inl ⟨rA, rfl, rfl⟩

/-- A decoded record's opcode is its instruction's (R53, R56). -/
theorem mnemonicOf_decoded {p : Params} {r : Record} {i : Instr} (h : decode p r = .ok i) :
    mnemonicOf p r.op = some i.mnemonic := by
  unfold decode at h
  split at h <;> rename_i hm
  case h_1 => cases h
  case h_4 =>
    rcases decodeRI_cases p r .imm with ⟨_, _, e⟩ | ⟨_, e⟩ <;> rw [e] at h <;> cases h
    exact hm
  all_goals first
    | (cases h; exact hm)
    | (rcases decodeRR_cases p r _ with ⟨_, _, _, _, e⟩ | ⟨_, e⟩ <;> rw [e] at h <;> cases h
       exact hm)

/-- A record with a mnemonic's opcode decodes, and then its operands fit their kinds, or is refused as
BAD_REGISTER, and then one of kind REG is no register's code (R56). -/
theorem decode_of_mnemonicOf {p : Params} {r : Record} {m : Mnemonic} (h : mnemonicOf p r.op = some m) :
    ((∃ i, decode p r = .ok i) ∧ operandWf p (kindA m) r.a = true ∧ operandWf p (kindB m) r.b = true) ∨
      (decode p r = .error .badRegister ∧
        ((kindA m = .reg ∧ regOf p r.a = none) ∨ (kindB m = .reg ∧ regOf p r.b = none))) := by
  unfold decode
  rw [h]
  cases m
  case imm =>
    rcases decodeRI_cases p r .imm with ⟨_, h1, e⟩ | ⟨h1, e⟩
    · exact .inl ⟨⟨_, e⟩, by simp [kindA, operandWf, h1], rfl⟩
    · exact .inr ⟨e, .inl ⟨rfl, h1⟩⟩
  all_goals first
    | exact .inl ⟨⟨_, rfl⟩, rfl, rfl⟩
    | (rcases decodeRR_cases p r _ with ⟨_, _, h1, h2, e⟩ | ⟨h1, e⟩
       · exact .inl ⟨⟨_, e⟩, by simp [kindA, operandWf, h1], by simp [kindB, operandWf, h2]⟩
       · exact .inr ⟨e, by simpa [kindA, kindB] using h1⟩)

/-- A default choice of parameters is one the spec allows. -/
theorem default_wf : Params.default.Wf := by decide

end Sys2Proof
end

