-- ==== Sys2Proof/Laws/State.lean ====
section
/-! SUPPORT. One lemma per field per named update of the state, each true by rfl, so that no proof unfolds a
record update; and the same for the views `reg`, `memRead` and `nslots`. -/

namespace Sys2Proof.Machine

/-! `setReg` -/

@[simp] theorem setReg_regs (s : State) (r : Reg) (v : Byte) : (s.setReg r v).regs = s.regs.set r v := rfl
@[simp] theorem setReg_ip (s : State) (r : Reg) (v : Byte) : (s.setReg r v).ip = s.ip := rfl
@[simp] theorem setReg_flags (s : State) (r : Reg) (v : Byte) : (s.setReg r v).flags = s.flags := rfl
@[simp] theorem setReg_mem (s : State) (r : Reg) (v : Byte) : (s.setReg r v).mem = s.mem := rfl
@[simp] theorem setReg_imem (s : State) (r : Reg) (v : Byte) : (s.setReg r v).imem = s.imem := rfl
@[simp] theorem setReg_inBuf (s : State) (r : Reg) (v : Byte) : (s.setReg r v).inBuf = s.inBuf := rfl
@[simp] theorem setReg_rcur (s : State) (r : Reg) (v : Byte) : (s.setReg r v).rcur = s.rcur := rfl
@[simp] theorem setReg_rbud (s : State) (r : Reg) (v : Byte) : (s.setReg r v).rbud = s.rbud := rfl
@[simp] theorem setReg_wbud (s : State) (r : Reg) (v : Byte) : (s.setReg r v).wbud = s.wbud := rfl
@[simp] theorem setReg_out (s : State) (r : Reg) (v : Byte) : (s.setReg r v).out = s.out := rfl
@[simp] theorem setReg_hs (s : State) (r : Reg) (v : Byte) : (s.setReg r v).hs = s.hs := rfl
@[simp] theorem setReg_params (s : State) (r : Reg) (v : Byte) : (s.setReg r v).params = s.params := rfl
@[simp] theorem setReg_memRead (s : State) (r : Reg) (v : Byte) (x : Byte) : (s.setReg r v).memRead x = s.memRead x := rfl
@[simp] theorem setReg_nslots (s : State) (r : Reg) (v : Byte) : (s.setReg r v).nslots = s.nslots := rfl

/-! `setFlags` -/

@[simp] theorem setFlags_regs (s : State) (f : Flags) : (s.setFlags f).regs = s.regs := rfl
@[simp] theorem setFlags_ip (s : State) (f : Flags) : (s.setFlags f).ip = s.ip := rfl
@[simp] theorem setFlags_flags (s : State) (f : Flags) : (s.setFlags f).flags = f := rfl
@[simp] theorem setFlags_mem (s : State) (f : Flags) : (s.setFlags f).mem = s.mem := rfl
@[simp] theorem setFlags_imem (s : State) (f : Flags) : (s.setFlags f).imem = s.imem := rfl
@[simp] theorem setFlags_inBuf (s : State) (f : Flags) : (s.setFlags f).inBuf = s.inBuf := rfl
@[simp] theorem setFlags_rcur (s : State) (f : Flags) : (s.setFlags f).rcur = s.rcur := rfl
@[simp] theorem setFlags_rbud (s : State) (f : Flags) : (s.setFlags f).rbud = s.rbud := rfl
@[simp] theorem setFlags_wbud (s : State) (f : Flags) : (s.setFlags f).wbud = s.wbud := rfl
@[simp] theorem setFlags_out (s : State) (f : Flags) : (s.setFlags f).out = s.out := rfl
@[simp] theorem setFlags_hs (s : State) (f : Flags) : (s.setFlags f).hs = s.hs := rfl
@[simp] theorem setFlags_params (s : State) (f : Flags) : (s.setFlags f).params = s.params := rfl
@[simp] theorem setFlags_reg (s : State) (f : Flags) (q : Reg) : (s.setFlags f).reg q = s.reg q := rfl
@[simp] theorem setFlags_memRead (s : State) (f : Flags) (x : Byte) : (s.setFlags f).memRead x = s.memRead x := rfl
@[simp] theorem setFlags_nslots (s : State) (f : Flags) : (s.setFlags f).nslots = s.nslots := rfl

/-! `advance` -/

@[simp] theorem advance_regs (s : State) : s.advance.regs = s.regs := rfl
@[simp] theorem advance_ip (s : State) : s.advance.ip = s.ip + 1 := rfl
@[simp] theorem advance_flags (s : State) : s.advance.flags = s.flags := rfl
@[simp] theorem advance_mem (s : State) : s.advance.mem = s.mem := rfl
@[simp] theorem advance_imem (s : State) : s.advance.imem = s.imem := rfl
@[simp] theorem advance_inBuf (s : State) : s.advance.inBuf = s.inBuf := rfl
@[simp] theorem advance_rcur (s : State) : s.advance.rcur = s.rcur := rfl
@[simp] theorem advance_rbud (s : State) : s.advance.rbud = s.rbud := rfl
@[simp] theorem advance_wbud (s : State) : s.advance.wbud = s.wbud := rfl
@[simp] theorem advance_out (s : State) : s.advance.out = s.out := rfl
@[simp] theorem advance_hs (s : State) : s.advance.hs = s.hs := rfl
@[simp] theorem advance_params (s : State) : s.advance.params = s.params := rfl
@[simp] theorem advance_reg (s : State) (q : Reg) : s.advance.reg q = s.reg q := rfl
@[simp] theorem advance_memRead (s : State) (x : Byte) : s.advance.memRead x = s.memRead x := rfl
@[simp] theorem advance_nslots (s : State) : s.advance.nslots = s.nslots := rfl

/-! `jumpTo` -/

@[simp] theorem jumpTo_regs (s : State) (t : Nat) : (s.jumpTo t).regs = s.regs := rfl
@[simp] theorem jumpTo_ip (s : State) (t : Nat) : (s.jumpTo t).ip = t := rfl
@[simp] theorem jumpTo_flags (s : State) (t : Nat) : (s.jumpTo t).flags = s.flags := rfl
@[simp] theorem jumpTo_mem (s : State) (t : Nat) : (s.jumpTo t).mem = s.mem := rfl
@[simp] theorem jumpTo_imem (s : State) (t : Nat) : (s.jumpTo t).imem = s.imem := rfl
@[simp] theorem jumpTo_inBuf (s : State) (t : Nat) : (s.jumpTo t).inBuf = s.inBuf := rfl
@[simp] theorem jumpTo_rcur (s : State) (t : Nat) : (s.jumpTo t).rcur = s.rcur := rfl
@[simp] theorem jumpTo_rbud (s : State) (t : Nat) : (s.jumpTo t).rbud = s.rbud := rfl
@[simp] theorem jumpTo_wbud (s : State) (t : Nat) : (s.jumpTo t).wbud = s.wbud := rfl
@[simp] theorem jumpTo_out (s : State) (t : Nat) : (s.jumpTo t).out = s.out := rfl
@[simp] theorem jumpTo_hs (s : State) (t : Nat) : (s.jumpTo t).hs = s.hs := rfl
@[simp] theorem jumpTo_params (s : State) (t : Nat) : (s.jumpTo t).params = s.params := rfl
@[simp] theorem jumpTo_reg (s : State) (t : Nat) (q : Reg) : (s.jumpTo t).reg q = s.reg q := rfl
@[simp] theorem jumpTo_memRead (s : State) (t : Nat) (x : Byte) : (s.jumpTo t).memRead x = s.memRead x := rfl
@[simp] theorem jumpTo_nslots (s : State) (t : Nat) : (s.jumpTo t).nslots = s.nslots := rfl

/-! `memWrite` -/

@[simp] theorem memWrite_regs (s : State) (a v : Byte) : (s.memWrite a v).regs = s.regs := rfl
@[simp] theorem memWrite_ip (s : State) (a v : Byte) : (s.memWrite a v).ip = s.ip := rfl
@[simp] theorem memWrite_flags (s : State) (a v : Byte) : (s.memWrite a v).flags = s.flags := rfl
@[simp] theorem memWrite_mem (s : State) (a v : Byte) : (s.memWrite a v).mem = s.mem.write a.toNat v := rfl
@[simp] theorem memWrite_imem (s : State) (a v : Byte) : (s.memWrite a v).imem = s.imem := rfl
@[simp] theorem memWrite_inBuf (s : State) (a v : Byte) : (s.memWrite a v).inBuf = s.inBuf := rfl
@[simp] theorem memWrite_rcur (s : State) (a v : Byte) : (s.memWrite a v).rcur = s.rcur := rfl
@[simp] theorem memWrite_rbud (s : State) (a v : Byte) : (s.memWrite a v).rbud = s.rbud := rfl
@[simp] theorem memWrite_wbud (s : State) (a v : Byte) : (s.memWrite a v).wbud = s.wbud := rfl
@[simp] theorem memWrite_out (s : State) (a v : Byte) : (s.memWrite a v).out = s.out := rfl
@[simp] theorem memWrite_hs (s : State) (a v : Byte) : (s.memWrite a v).hs = s.hs := rfl
@[simp] theorem memWrite_params (s : State) (a v : Byte) : (s.memWrite a v).params = s.params := rfl
@[simp] theorem memWrite_reg (s : State) (a v : Byte) (q : Reg) : (s.memWrite a v).reg q = s.reg q := rfl
@[simp] theorem memWrite_nslots (s : State) (a v : Byte) : (s.memWrite a v).nslots = s.nslots := rfl

/-! `emit` -/

@[simp] theorem emit_regs (s : State) (v : Byte) : (s.emit v).regs = s.regs := rfl
@[simp] theorem emit_ip (s : State) (v : Byte) : (s.emit v).ip = s.ip := rfl
@[simp] theorem emit_flags (s : State) (v : Byte) : (s.emit v).flags = s.flags := rfl
@[simp] theorem emit_mem (s : State) (v : Byte) : (s.emit v).mem = s.mem := rfl
@[simp] theorem emit_imem (s : State) (v : Byte) : (s.emit v).imem = s.imem := rfl
@[simp] theorem emit_inBuf (s : State) (v : Byte) : (s.emit v).inBuf = s.inBuf := rfl
@[simp] theorem emit_rcur (s : State) (v : Byte) : (s.emit v).rcur = s.rcur := rfl
@[simp] theorem emit_rbud (s : State) (v : Byte) : (s.emit v).rbud = s.rbud := rfl
@[simp] theorem emit_wbud (s : State) (v : Byte) : (s.emit v).wbud = s.wbud - 1 := rfl
@[simp] theorem emit_out (s : State) (v : Byte) : (s.emit v).out = s.out ++ [v] := rfl
@[simp] theorem emit_hs (s : State) (v : Byte) : (s.emit v).hs = s.hs := rfl
@[simp] theorem emit_params (s : State) (v : Byte) : (s.emit v).params = s.params := rfl
@[simp] theorem emit_reg (s : State) (v : Byte) (q : Reg) : (s.emit v).reg q = s.reg q := rfl
@[simp] theorem emit_memRead (s : State) (v : Byte) (x : Byte) : (s.emit v).memRead x = s.memRead x := rfl
@[simp] theorem emit_nslots (s : State) (v : Byte) : (s.emit v).nslots = s.nslots := rfl

/-! `consumeInput` -/

@[simp] theorem consumeInput_regs (s : State) : s.consumeInput.regs = s.regs := rfl
@[simp] theorem consumeInput_ip (s : State) : s.consumeInput.ip = s.ip := rfl
@[simp] theorem consumeInput_flags (s : State) : s.consumeInput.flags = s.flags := rfl
@[simp] theorem consumeInput_mem (s : State) : s.consumeInput.mem = s.mem := rfl
@[simp] theorem consumeInput_imem (s : State) : s.consumeInput.imem = s.imem := rfl
@[simp] theorem consumeInput_inBuf (s : State) : s.consumeInput.inBuf = s.inBuf := rfl
@[simp] theorem consumeInput_rcur (s : State) : s.consumeInput.rcur = s.rcur + 1 := rfl
@[simp] theorem consumeInput_rbud (s : State) : s.consumeInput.rbud = s.rbud - 1 := rfl
@[simp] theorem consumeInput_wbud (s : State) : s.consumeInput.wbud = s.wbud := rfl
@[simp] theorem consumeInput_out (s : State) : s.consumeInput.out = s.out := rfl
@[simp] theorem consumeInput_hs (s : State) : s.consumeInput.hs = s.hs := rfl
@[simp] theorem consumeInput_params (s : State) : s.consumeInput.params = s.params := rfl
@[simp] theorem consumeInput_reg (s : State) (q : Reg) : s.consumeInput.reg q = s.reg q := rfl
@[simp] theorem consumeInput_memRead (s : State) (x : Byte) : s.consumeInput.memRead x = s.memRead x := rfl
@[simp] theorem consumeInput_nslots (s : State) : s.consumeInput.nslots = s.nslots := rfl

/-! `haltExit` -/

@[simp] theorem haltExit_regs (s : State) : (haltExit s).regs = s.regs := rfl
@[simp] theorem haltExit_ip (s : State) : (haltExit s).ip = s.ip := rfl
@[simp] theorem haltExit_flags (s : State) : (haltExit s).flags = s.flags := rfl
@[simp] theorem haltExit_mem (s : State) : (haltExit s).mem = s.mem := rfl
@[simp] theorem haltExit_imem (s : State) : (haltExit s).imem = s.imem := rfl
@[simp] theorem haltExit_inBuf (s : State) : (haltExit s).inBuf = s.inBuf := rfl
@[simp] theorem haltExit_rcur (s : State) : (haltExit s).rcur = s.rcur := rfl
@[simp] theorem haltExit_rbud (s : State) : (haltExit s).rbud = s.rbud := rfl
@[simp] theorem haltExit_wbud (s : State) : (haltExit s).wbud = s.wbud := rfl
@[simp] theorem haltExit_out (s : State) : (haltExit s).out = s.out := rfl
@[simp] theorem haltExit_hs (s : State) : (haltExit s).hs = .exited := rfl
@[simp] theorem haltExit_params (s : State) : (haltExit s).params = s.params := rfl
@[simp] theorem haltExit_reg (s : State) (q : Reg) : (haltExit s).reg q = s.reg q := rfl
@[simp] theorem haltExit_memRead (s : State) (x : Byte) : (haltExit s).memRead x = s.memRead x := rfl
@[simp] theorem haltExit_nslots (s : State) : (haltExit s).nslots = s.nslots := rfl

/-! `raiseFault` -/

@[simp] theorem raiseFault_regs (k : FaultKind) (s : State) : (raiseFault k s).regs = s.regs.set .ra (sentinelOf s.params.err k) := rfl
@[simp] theorem raiseFault_ip (k : FaultKind) (s : State) : (raiseFault k s).ip = s.ip := rfl
@[simp] theorem raiseFault_flags (k : FaultKind) (s : State) : (raiseFault k s).flags = s.flags := rfl
@[simp] theorem raiseFault_mem (k : FaultKind) (s : State) : (raiseFault k s).mem = s.mem := rfl
@[simp] theorem raiseFault_imem (k : FaultKind) (s : State) : (raiseFault k s).imem = s.imem := rfl
@[simp] theorem raiseFault_inBuf (k : FaultKind) (s : State) : (raiseFault k s).inBuf = s.inBuf := rfl
@[simp] theorem raiseFault_rcur (k : FaultKind) (s : State) : (raiseFault k s).rcur = s.rcur := rfl
@[simp] theorem raiseFault_rbud (k : FaultKind) (s : State) : (raiseFault k s).rbud = s.rbud := rfl
@[simp] theorem raiseFault_wbud (k : FaultKind) (s : State) : (raiseFault k s).wbud = s.wbud := rfl
@[simp] theorem raiseFault_out (k : FaultKind) (s : State) : (raiseFault k s).out = s.out := rfl
@[simp] theorem raiseFault_hs (k : FaultKind) (s : State) : (raiseFault k s).hs = .fault k := rfl
@[simp] theorem raiseFault_params (k : FaultKind) (s : State) : (raiseFault k s).params = s.params := rfl
@[simp] theorem raiseFault_memRead (k : FaultKind) (s : State) (x : Byte) : (raiseFault k s).memRead x = s.memRead x := rfl
@[simp] theorem raiseFault_nslots (k : FaultKind) (s : State) : (raiseFault k s).nslots = s.nslots := rfl

/-! Reading a register after a write (R9, R13) -/

@[simp] theorem regs_get_set_same (x : Regs) (r : Reg) (v : Byte) : (x.set r v).get r = v := by
  cases r <;> rfl

theorem regs_get_set_other (x : Regs) (r q : Reg) (v : Byte) (h : q ≠ r) : (x.set r v).get q = x.get q := by
  cases r <;> cases q <;> first | rfl | exact absurd rfl h

@[simp] theorem setReg_reg_same (s : State) (r : Reg) (v : Byte) : (s.setReg r v).reg r = v :=
  regs_get_set_same s.regs r v

theorem setReg_reg_other (s : State) (r q : Reg) (v : Byte) (h : q ≠ r) : (s.setReg r v).reg q = s.reg q :=
  regs_get_set_other s.regs r q v h

@[simp] theorem raiseFault_reg_ra (k : FaultKind) (s : State) :
    (raiseFault k s).reg .ra = sentinelOf s.params.err k := rfl

theorem raiseFault_reg_other (k : FaultKind) (s : State) (q : Reg) (h : q ≠ .ra) :
    (raiseFault k s).reg q = s.reg q :=
  regs_get_set_other s.regs .ra q _ h

end Sys2Proof.Machine
end

