-- ==== Sys2Proof/Laws/Exec.lean ====
section
/-! SUPPORT. What an instruction and a step can do, said once: `Effect` lists every change one instruction
makes, `exec_effect` says that every instruction makes one of them, and `step_effect` lifts it to a step. -/

namespace Sys2Proof.Machine

/-- The changes one instruction can make to a running core. -/
inductive Effect (s : State) : State → Prop where
  /-- a register is written (R68, R82) -/
  | wrote (r : Reg) (v : Byte) : Effect s (s.setReg r v).advance
  /-- the flags are replaced (R78) -/
  | flagged (f : Flags) : Effect s (s.setFlags f).advance
  /-- a byte is stored (R81) -/
  | stored (a v : Byte) : Effect s (s.memWrite a v).advance
  /-- a branch is taken (R83) -/
  | jumped (t : Byte) : Effect s (s.jumpTo t.toNat)
  /-- a branch falls through (R85, R86) -/
  | passed : Effect s s.advance
  /-- a byte is emitted (R90) -/
  | emitted (h : s.wbud ≠ 0) : Effect s (s.emit (s.reg .rb)).advance
  /-- an input byte is read into ra (R91) -/
  | consumed (v : Byte) (h : s.rbud ≠ 0) (hv : s.inBuf[s.rcur]? = some v) :
      Effect s (s.setReg .ra v).consumeInput.advance
  /-- the core exits (R92) -/
  | exited (h : s.reg .ra = s.params.sel.exit) : Effect s (haltExit s)
  /-- a halting fault is raised (R95) -/
  | raised (k : FaultKind) : Effect s (raiseFault k s)

theorem sysWrite_effect (s : State) : Effect s (sysWrite s) := by
  unfold sysWrite
  split
  · exact .raised _
  · exact .emitted ‹_›

theorem sysRead_effect (s : State) : Effect s (sysRead s) := by
  unfold sysRead
  split
  · exact .raised _
  · split
    · exact .raised _
    · exact .consumed _ ‹_› ‹_›

theorem branchIf_effect (b : Bool) (t : Byte) (s : State) : Effect s (branchIf b t s) := by
  cases b
  · exact .passed
  · exact .jumped t

/-- Every instruction answers a next state, reached by one effect. -/
theorem exec_effect (i : Instr) (s : State) : ∃ t, exec i s = .next t ∧ Effect s t := by
  cases i with
  | add rA rB => exact ⟨_, rfl, .wrote _ _⟩
  | sub rA rB => exact ⟨_, rfl, .wrote _ _⟩
  | imm rA lit => exact ⟨_, rfl, .wrote _ _⟩
  | cmp rA rB => exact ⟨_, rfl, .flagged _⟩
  | stm rA rB => exact ⟨_, rfl, .stored _ _⟩
  | ldm rA rB => exact ⟨_, rfl, .wrote _ _⟩
  | jmp t => exact ⟨_, rfl, .jumped t⟩
  | jne t => exact ⟨_, rfl, branchIf_effect _ t s⟩
  | jlt t => exact ⟨_, rfl, branchIf_effect _ t s⟩
  | and rA rB => exact ⟨_, rfl, .wrote _ _⟩
  | orr rA rB => exact ⟨_, rfl, .wrote _ _⟩
  | xor rA rB => exact ⟨_, rfl, .wrote _ _⟩
  | not rA rB => exact ⟨_, rfl, .wrote _ _⟩
  | sys =>
    simp only [exec, execSys]
    split
    · exact ⟨_, rfl, sysWrite_effect s⟩
    · split
      · exact ⟨_, rfl, sysRead_effect s⟩
      · split
        · exact ⟨_, rfl, .exited ‹_›⟩
        · exact ⟨_, rfl, .raised _⟩
  | mov => exact ⟨_, rfl, .raised _⟩

/-- A halted core does not change (R114). -/
theorem step_halted {s : State} (h : s.hs ≠ .running) : step s = .next s := by
  unfold step
  cases hs : s.hs with
  | running => exact absurd hs h
  | exited => rfl
  | fault k => rfl

/-- A running core whose ip is past the image raises FETCH_RANGE (R35). -/
theorem step_fetchRange {s : State} (h : s.hs = .running) (hf : fetch s s.ip = none) :
    step s = .next (raiseFault .fetchRange s) := by
  simp only [step, h, hf]

/-- A running core whose record does not decode raises that fault (R56). -/
theorem step_decodeError {s : State} (h : s.hs = .running) {r : Record} (hf : fetch s s.ip = some r)
    {e : DecodeFault} (hd : decode s.params r = .error e) :
    step s = .next (raiseFault (decodeFaultKind e) s) := by
  simp only [step, h, hf, hd]

/-- A running core executes the instruction its record decodes to (R112). -/
theorem step_exec {s : State} (h : s.hs = .running) {r : Record} (hf : fetch s s.ip = some r)
    {i : Instr} (hd : decode s.params r = .ok i) : step s = exec i s := by
  simp only [step, h, hf, hd]

/-- Every step answers a next state: the same one if the core is halted, else one effect away. -/
theorem step_effect (s : State) :
    ∃ t, step s = .next t ∧ ((s.hs ≠ .running ∧ t = s) ∨ (s.hs = .running ∧ Effect s t)) := by
  by_cases h : s.hs = .running
  · cases hf : fetch s s.ip with
    | none => exact ⟨_, step_fetchRange h hf, .inr ⟨h, .raised _⟩⟩
    | some r =>
      cases hd : decode s.params r with
      | error e => exact ⟨_, step_decodeError h hf hd, .inr ⟨h, .raised _⟩⟩
      | ok i =>
        obtain ⟨t, ht, he⟩ := exec_effect i s
        exact ⟨t, (step_exec h hf hd).trans ht, .inr ⟨h, he⟩⟩
  · exact ⟨s, step_halted h, .inl ⟨h, rfl⟩⟩

/-- Two answers of one step are one state. -/
theorem next_inj {s t : State} (h : (Host.Outcome.next s : Result) = .next t) : s = t := by
  cases h; rfl

/-- What a step that answers a next state did. -/
theorem step_next {s t : State} (h : step s = .next t) :
    (s.hs ≠ .running ∧ t = s) ∨ (s.hs = .running ∧ Effect s t) := by
  obtain ⟨u, hu, he⟩ := step_effect s
  rw [hu] at h
  exact next_inj h ▸ he

/-- The host's step is the next state and its halted boolean (R112). -/
theorem hostStep_eq {s t : State} (h : step s = .next t) : hostStep s = (t, t.halted) := by
  simp only [hostStep, h]

/-- A fetch succeeds exactly below NSLOTS (R35). -/
theorem fetch_eq_none {s : State} {i : Nat} : fetch s i = none ↔ s.nslots ≤ i := by
  unfold fetch
  split <;> simp_all

/-- A fetch below NSLOTS reads three bytes that are in the image (R35). -/
theorem fetch_in_image {s : State} {i : Nat} {r : Record} (h : fetch s i = some r) :
    s.imem[3 * i]? = some r.op ∧ s.imem[3 * i + 1]? = some r.a ∧ s.imem[3 * i + 2]? = some r.b := by
  unfold fetch at h
  split at h
  · cases h
  · cases h
    have : 3 * i + 2 < s.imem.length := by
      simp only [State.nslots, Config.recordLength] at *
      omega
    simp only [State.imemByte, List.getD_eq_getElem?_getD]
    refine ⟨?_, ?_, ?_⟩ <;> rw [List.getElem?_eq_getElem (by omega)] <;> rfl

/-- A fetch at ip succeeds exactly with the record the store holds there (R35). -/
theorem fetch_eq_some_iff {s : State} {r : Record} : fetch s s.ip = some r ↔ AtIp s r := by
  refine ⟨fetch_in_image, fun ⟨h1, h2, h3⟩ => ?_⟩
  have hl := (List.getElem?_eq_some_iff.1 h3).1
  have hn : ¬ s.nslots ≤ s.ip := by
    simp only [State.nslots, Config.recordLength]
    omega
  simp only [fetch, if_neg hn, State.imemByte, List.getD_eq_getElem?_getD, h1, h2, h3, Option.getD_some]

/-- The stored record's bytes stand at its index, whatever the image was. -/
theorem storeRecord_bytes (image : List Byte) (i : Nat) (r : Record) :
    (storeRecord image i r)[3 * i]? = some r.op ∧ (storeRecord image i r)[3 * i + 1]? = some r.a ∧
      (storeRecord image i r)[3 * i + 2]? = some r.b := by
  have hl : ((image ++ List.replicate (3 * i - image.length) (0x00 : Byte)).take (3 * i)).length = 3 * i := by
    simp only [List.length_take, List.length_append, List.length_replicate]
    omega
  unfold storeRecord Record.bytes
  generalize (image ++ List.replicate (3 * i - image.length) (0x00 : Byte)).take (3 * i) = l at *
  rw [← hl]
  simp

/-- What raising a fault leaves (R95). -/
theorem raiseFault_raised (k : FaultKind) (s : State) : Raised k s (raiseFault k s) :=
  ⟨rfl, rfl, rfl, fun q hq => raiseFault_reg_other k s q hq, rfl, fun _ => rfl, ⟨rfl, rfl, rfl, rfl⟩,
    ⟨rfl, rfl, rfl⟩⟩

/-- One step first, then the others. -/
theorem stepMany_succ {s t : State} (h : step s = .next t) (n : Nat) : stepMany (n + 1) s = stepMany n t := by
  rw [stepMany, hostStep_eq h]

/-- What every step keeps holds after any number of steps. -/
theorem stepMany_induction {P : State → Prop} (hP : ∀ s t, P s → step s = .next t → P t) (n : Nat) :
    ∀ s, P s → P (stepMany n s) := by
  induction n with
  | zero => exact fun _ h => h
  | succ n ih =>
    intro s h
    obtain ⟨t, ht, _⟩ := step_effect s
    rw [stepMany_succ ht]
    exact ih t (hP s t h ht)

end Sys2Proof.Machine
end

