-- ==== Sys2Proof/Laws/Memory.lean ====
section
/-! SUPPORT. The laws of data memory: a read after a write, that every operation keeps the canonical form,
and that canonical memories with the same bytes are equal. -/

namespace Sys2Proof.Machine

/-- One inversion of the canonical form of a cell and the cells after it. -/
theorem wfFrom_cons (lo a : Nat) (v : Byte) (m : Memory) :
    Memory.wfFrom lo ((a, v) :: m) = true ↔
      lo ≤ a ∧ a < 256 ∧ v ≠ Memory.unlisted ∧ Memory.wfFrom (a + 1) m = true := by
  simp only [Memory.wfFrom, Bool.and_eq_true, decide_eq_true_eq, and_assoc]
  rfl

theorem wfFrom_mono {lo lo' : Nat} (h : lo' ≤ lo) {m : Memory} (hm : Memory.wfFrom lo m = true) :
    Memory.wfFrom lo' m = true := by
  cases m with
  | nil => rfl
  | cons c m =>
    obtain ⟨a, v⟩ := c
    rw [wfFrom_cons] at hm ⊢
    exact ⟨by omega, hm.2⟩

/-- Below its first address a canonical memory lists nothing. -/
theorem read_below {lo : Nat} {m : Memory} (hm : Memory.wfFrom lo m = true) {x : Nat} (hx : x < lo) :
    m.read x = Memory.unlisted := by
  induction m generalizing lo with
  | nil => rfl
  | cons c m ih =>
    obtain ⟨a, v⟩ := c
    rw [wfFrom_cons] at hm
    rw [Memory.read, if_neg (by omega), ih hm.2.2.2 (by omega)]

@[simp] theorem read_nil (x : Nat) : Memory.read [] x = Memory.unlisted := rfl

theorem read_consCell_same (a : Nat) (v : Byte) (m : Memory) (h : m.read a = Memory.unlisted) :
    Memory.read (Memory.consCell a v m) a = v := by
  unfold Memory.consCell
  split
  · rw [h]; exact Eq.symm ‹_›
  · simp [Memory.read]

theorem read_consCell_other (a x : Nat) (v : Byte) (m : Memory) (h : x ≠ a) :
    Memory.read (Memory.consCell a v m) x = m.read x := by
  unfold Memory.consCell
  split
  · rfl
  · simp [Memory.read, h.symm]

theorem wfFrom_consCell {lo a : Nat} {v : Byte} {m : Memory} (hlo : lo ≤ a) (ha : a < 256)
    (hm : Memory.wfFrom (a + 1) m = true) : Memory.wfFrom lo (Memory.consCell a v m) = true := by
  unfold Memory.consCell
  split
  · exact wfFrom_mono (by omega) hm
  · exact (wfFrom_cons ..).2 ⟨hlo, ha, ‹_›, hm⟩

/-- A read after a write to the same address gives the value written (R33, R34). -/
theorem read_write_same {lo : Nat} {m : Memory} (hm : Memory.wfFrom lo m = true) (a : Nat) (v : Byte) :
    Memory.read (m.write a v) a = v := by
  induction m generalizing lo with
  | nil => exact read_consCell_same a v [] rfl
  | cons c m ih =>
    obtain ⟨k, b⟩ := c
    have hk := (wfFrom_cons ..).1 hm
    unfold Memory.write
    split
    · exact read_consCell_same a v _
        (read_below ((wfFrom_cons (a + 1) k b m).2 ⟨by omega, hk.2⟩) (by omega))
    · split
      · exact read_consCell_same a v m (read_below hk.2.2.2 (by omega))
      · rw [Memory.read, if_neg (by omega), ih hk.2.2.2]

/-- A write leaves every other address alone (R34). -/
theorem read_write_other (m : Memory) (a x : Nat) (v : Byte) (h : x ≠ a) :
    Memory.read (m.write a v) x = m.read x := by
  induction m with
  | nil => exact read_consCell_other a x v [] h
  | cons c m ih =>
    obtain ⟨k, b⟩ := c
    unfold Memory.write
    split
    · exact read_consCell_other a x v _ h
    · split
      · rw [read_consCell_other a x v m h, Memory.read, if_neg (by omega)]
      · simp only [Memory.read, ih]

theorem wfFrom_write {lo : Nat} {m : Memory} (hm : Memory.wfFrom lo m = true) {a : Nat} (hlo : lo ≤ a)
    (ha : a < 256) (v : Byte) : Memory.wfFrom lo (m.write a v) = true := by
  induction m generalizing lo with
  | nil => exact wfFrom_consCell hlo ha rfl
  | cons c m ih =>
    obtain ⟨k, b⟩ := c
    have hk := (wfFrom_cons ..).1 hm
    unfold Memory.write
    split
    · exact wfFrom_consCell hlo ha ((wfFrom_cons ..).2 ⟨by omega, hk.2⟩)
    · split
      · exact wfFrom_consCell hlo ha (by
          have := hk.2.2.2
          subst_vars
          exact this)
      · exact (wfFrom_cons ..).2 ⟨hk.1, hk.2.1, hk.2.2.1, ih hk.2.2.2 (by omega)⟩

/-- A write keeps the canonical form (entry 10). -/
theorem wf_write {m : Memory} (hm : m.wf = true) (a v : Byte) : (m.write a.toNat v).wf = true :=
  wfFrom_write hm (Nat.zero_le _) a.isLt v

theorem wfFrom_ofBytes (vs : List Byte) (lo : Nat) (h : lo + vs.length ≤ 256) :
    Memory.wfFrom lo (Memory.ofBytes lo vs) = true := by
  induction vs generalizing lo with
  | nil => rfl
  | cons v vs ih =>
    simp only [List.length_cons] at h
    exact wfFrom_consCell (Nat.le_refl _) (by omega) (ih (lo + 1) (by omega))

/-- The memory of a construction has the canonical form. -/
theorem wf_ofBytes (vs : List Byte) : (Memory.ofBytes 0 (vs.take Config.memSize)).wf = true :=
  wfFrom_ofBytes _ 0 (by simp [Config.memSize])

/-- The memory of a construction holds the listed bytes. -/
theorem read_ofBytes (vs : List Byte) (lo i : Nat) (h : lo + vs.length ≤ 256) :
    Memory.read (Memory.ofBytes lo vs) (lo + i) = vs.getD i Memory.unlisted := by
  induction vs generalizing lo i with
  | nil => simp [Memory.ofBytes]
  | cons v vs ih =>
    simp only [List.length_cons] at h
    have hb := wfFrom_ofBytes vs (lo + 1) (by omega)
    cases i with
    | zero => exact read_consCell_same lo v _ (read_below hb (by omega))
    | succ i =>
      rw [Memory.ofBytes, read_consCell_other lo _ v _ (by omega), List.getD_cons_succ, ← ih (lo + 1) i (by omega)]
      congr 1
      omega

/-- Canonical memories with the same bytes are the same data. -/
theorem memory_ext {lo : Nat} {m n : Memory} (hm : Memory.wfFrom lo m = true) (hn : Memory.wfFrom lo n = true)
    (h : ∀ x, m.read x = n.read x) : m = n := by
  induction m generalizing lo n with
  | nil =>
    cases n with
    | nil => rfl
    | cons c n =>
      obtain ⟨b, w⟩ := c
      have hb := (wfFrom_cons ..).1 hn
      have := h b
      simp [Memory.read] at this
      exact absurd this.symm hb.2.2.1
  | cons c m ih =>
    obtain ⟨a, v⟩ := c
    have ha := (wfFrom_cons ..).1 hm
    cases n with
    | nil =>
      have := h a
      simp [Memory.read] at this
      exact absurd this ha.2.2.1
    | cons d n =>
      obtain ⟨b, w⟩ := d
      have hb := (wfFrom_cons ..).1 hn
      have hab : a = b := by
        by_contra hne
        rcases Nat.lt_or_gt_of_ne hne with hlt | hlt
        · have h1 := h a
          rw [read_below (lo := a + 1) ((wfFrom_cons (a + 1) b w n).2 ⟨by omega, hb.2⟩) (by omega)] at h1
          simp [Memory.read] at h1
          exact ha.2.2.1 h1
        · have h1 := h b
          rw [read_below (lo := b + 1) ((wfFrom_cons (b + 1) a v m).2 ⟨by omega, ha.2⟩) (by omega)] at h1
          simp [Memory.read] at h1
          exact hb.2.2.1 h1.symm
      subst hab
      have hvw : v = w := by simpa [Memory.read] using h a
      subst hvw
      rw [ih ha.2.2.2 hb.2.2.2 (fun x => ?_)]
      by_cases hx : x = a
      · subst hx
        rw [read_below ha.2.2.2 (by omega), read_below hb.2.2.2 (by omega)]
      · simpa [Memory.read, Ne.symm hx] using h x

end Sys2Proof.Machine
end

