-- ==== Sys2Proof/Laws/PerInstr.lean ====
section
/-! SUPPORT. Statements for all instructions, one lemma per constructor. EncodeWf: the record the encoder
writes is a well-formed instruction word that carries the instruction's own opcode. -/

namespace Sys2Proof.Laws.EncodeWf

/-- The encoding of an instruction selects its mnemonic (R53), and its operands fit their kinds (R49). -/
def Statement (i : Instr) : Prop :=
  ∀ p : Params, p.Wf → mnemonicOf p (encode p i).op = some i.mnemonic ∧ (encode p i).wf p = true

theorem ofRR {i : Instr} {m : Mnemonic} {rA rB : Reg} (hm : i.mnemonic = m)
    (he : ∀ p, encode p i = encodeRR p m rA rB) : Statement i := by
  intro p hp
  rw [he p, hm]
  simp only [encodeRR, Record.wf, mnemonicOf_code hp.2.1, true_and]
  cases m <;> simp [kindA, kindB, operandWf, hp.1]

theorem ofIX {i : Instr} {m : Mnemonic} {t : Byte} (hm : i.mnemonic = m) (he : ∀ p, encode p i = encodeIX p m t)
    (hA : kindA m = .lit) (hB : kindB m = .ign) : Statement i := by
  intro p hp
  rw [he p, hm]
  simp [encodeIX, Record.wf, hp.2.1, hA, hB, operandWf]

theorem add (rA rB : Reg) : Statement (.add rA rB) := ofRR rfl (fun _ => rfl)
theorem sub (rA rB : Reg) : Statement (.sub rA rB) := ofRR rfl (fun _ => rfl)
theorem imm (rA : Reg) (lit : Byte) : Statement (.imm rA lit) := by
  intro p hp
  simp [encode, Instr.mnemonic, Record.wf, hp.1, hp.2.1, kindA, kindB, operandWf]
theorem cmp (rA rB : Reg) : Statement (.cmp rA rB) := ofRR rfl (fun _ => rfl)
theorem stm (rA rB : Reg) : Statement (.stm rA rB) := ofRR rfl (fun _ => rfl)
theorem ldm (rA rB : Reg) : Statement (.ldm rA rB) := ofRR rfl (fun _ => rfl)
theorem jmp (t : Byte) : Statement (.jmp t) := ofIX rfl (fun _ => rfl) rfl rfl
theorem jne (t : Byte) : Statement (.jne t) := ofIX rfl (fun _ => rfl) rfl rfl
theorem jlt (t : Byte) : Statement (.jlt t) := ofIX rfl (fun _ => rfl) rfl rfl
theorem and (rA rB : Reg) : Statement (.and rA rB) := ofRR rfl (fun _ => rfl)
theorem orr (rA rB : Reg) : Statement (.orr rA rB) := ofRR rfl (fun _ => rfl)
theorem xor (rA rB : Reg) : Statement (.xor rA rB) := ofRR rfl (fun _ => rfl)
theorem not (rA rB : Reg) : Statement (.not rA rB) := ofRR rfl (fun _ => rfl)
theorem sys : Statement .sys := by
  intro p hp
  simp [encode, Instr.mnemonic, Record.wf, hp.2.1, kindA, kindB, operandWf]
theorem mov : Statement .mov := by
  intro p hp
  simp [encode, Instr.mnemonic, Record.wf, hp.2.1, kindA, kindB, operandWf]

end Sys2Proof.Laws.EncodeWf
end

