-- ==== Sys2Proof/Tests/Slice0.lean ====
section
/-! SUPPORT. Tests on fixed values, each expected result taken from the spec (95_test_vectors.md or the rule
named), and for each statement with hypotheses a state and operands that meet them. -/

namespace Sys2Proof.Tests

open Sys2Proof Sys2Proof.Machine

/-- A core with the spec's test flags F = 0b1010 (V and C set), as V-ALU uses, and given ra and rb. -/
def core (ra rb : Byte) : State :=
  { State.reset with
    regs := { initRegs with ra := ra, rb := rb }
    flags := { s := false, c := true, z := false, v := true } }

/-- One step of a core with a record loaded at ip, and a test of the state it answers. -/
def after (s : State) (w : Nat) (test : State → Bool) : Bool :=
  match step (s.withFetchWord 24 w) with
  | .next t => test t
  | .refused _ => false

/-- F as the spec's tables write it, 0bVZCS. -/
def flagsOf (n : BitVec 4) : Flags :=
  { s := n.getLsbD 0, c := n.getLsbD 1, z := n.getLsbD 2, v := n.getLsbD 3 }

/-! The checks of WellFormed, each with a term it refuses. -/

theorem test_default_params_wf : Params.default.Wf := by decide

theorem test_regCodes_refused :
    ¬ { Params.default with regCode := { Params.default.regCode with rb := 0x01 } }.RegCodesDistinct := by decide

theorem test_opcodes_refused :
    ¬ { Params.default with opc := { Params.default.opc with mov := 0x01 } }.OpcodesDistinct := by decide

theorem test_selectors_refused :
    ¬ { Params.default with sel := { Params.default.sel with exit := 0x01 } }.SelectorsDistinct := by decide

theorem test_sentinels_refused :
    ¬ { Params.default with err := { Params.default.err with read := 0xFF } }.SentinelsDistinct := by decide

theorem test_selector_as_sentinel_refused :
    ¬ { Params.default with err := { Params.default.err with opcode := 0x08 } }.SelectorsNotSentinels := by decide

theorem test_flagPositions_refused :
    ¬ { Params.default with fpos := { Params.default.fpos with v := 0 } }.FlagPositionsDistinct := by decide

theorem test_operand_refused : operandWf Params.default .reg 0x03 = false := by decide

theorem test_record_refused_bad_opcode : Record.wf Params.default ⟨0x00, 0x01, 0x02⟩ = false := by decide

theorem test_record_refused_bad_register : Record.wf Params.default ⟨0x01, 0x01, 0x40⟩ = false := by decide

theorem test_image_refused : imageWf [0x07, 0x00] = false := by decide

theorem test_memory_refused_unsorted : Memory.wf [(2, 1), (1, 1)] = false := by decide

theorem test_memory_refused_zero_cell : Memory.wf [(2, 0)] = false := by decide

theorem test_memory_refused_outside : Memory.wf [(256, 1)] = false := by decide

/-! Decoding: one word for every constructor, bit by bit from the encodings of R50 and R53. -/

theorem test_decode_add : decodeTableWord 24 0b000000010000000100000010 = some (.add .ra .rb) := by decide
theorem test_decode_sub : decodeTableWord 24 0b000000100000010000010000 = some (.sub .rc .re) := by decide
theorem test_decode_imm : decodeTableWord 24 0b000000110010000001111111 = some (.imm .rf 127) := by decide
theorem test_decode_cmp : decodeTableWord 24 0b000001000000010000100000 = some (.cmp .rc .rf) := by decide
theorem test_decode_stm : decodeTableWord 24 0b000001010000001000001000 = some (.stm .rb .rd) := by decide
theorem test_decode_ldm : decodeTableWord 24 0b000001100000010000000010 = some (.ldm .rc .rb) := by decide
theorem test_decode_jmp : decodeTableWord 24 0b000001110000010000000000 = some (.jmp 4) := by decide
theorem test_decode_jne : decodeTableWord 24 0b000010000000100100000000 = some (.jne 9) := by decide
theorem test_decode_jlt : decodeTableWord 24 0b000010010000011000000000 = some (.jlt 6) := by decide
theorem test_decode_and : decodeTableWord 24 0b000010100000000100000010 = some (.and .ra .rb) := by decide
theorem test_decode_orr : decodeTableWord 24 0b000010110000100000000001 = some (.orr .rd .ra) := by decide
theorem test_decode_xor : decodeTableWord 24 0b000011000000001000000001 = some (.xor .rb .ra) := by decide
theorem test_decode_not : decodeTableWord 24 0b000011010000001000000010 = some (.not .rb .rb) := by decide
theorem test_decode_sys : decodeTableWord 24 0b000011101110111011101110 = some .sys := by decide
theorem test_decode_mov : decodeTableWord 24 0b000011110000000000000000 = some .mov := by decide

/-- R54, V-DEC-1 to V-DEC-3: illegal opcodes at the ends of the map. -/
theorem test_illegal_opcodes :
    mnemonicOf Params.default 0x00 = none ∧ mnemonicOf Params.default 0x10 = none ∧
      mnemonicOf Params.default 0xFF = none := by decide

/-- R50: bytes that are no register's code: zero, two bits set, one-hot past rf. -/
theorem test_no_register :
    regOf Params.default 0x00 = none ∧ regOf Params.default 0x03 = none ∧ regOf Params.default 0x21 = none ∧
      regOf Params.default 0x40 = none := by decide

/-! One step each, from 95_test_vectors.md. -/

/-- V-ALU-1: 200 + 100 = 44; F, rb unchanged, ip = 1. -/
theorem test_add_wraps : after (core 0xC8 0x64) 0x010102
    (fun t => t.regs == { initRegs with ra := 0x2C, rb := 0x64 } && t.flags == flagsOf 0b1010 && t.ip == 1) := by
  decide

/-- V-ALU-22: the destination is also both sources. -/
theorem test_add_same_register : after { core 0 0 with regs := { initRegs with rc := 0x80 } } 0x010404
    (fun t => t.regs.rc == 0x00) := by decide

/-- V-ALU-6: 0 - 1 = 255. -/
theorem test_sub_wraps : after (core 0x00 0x01) 0x020102 (fun t => t.regs.ra == 0xFF) := by decide

/-- V-ALU-7: a subtrahend of 0 leaves the minuend. -/
theorem test_sub_zero : after (core 0x05 0x00) 0x020102 (fun t => t.regs.ra == 0x05) := by decide

/-- V-ALU-32: a literal equal to a register's code is a number. -/
theorem test_imm_register_code : after (core 0 0x77) 0x032002 (fun t => t.regs.rf == 0x02) := by decide

/-- V-ALU-33: operand B of imm is never checked as a register. -/
theorem test_imm_b_not_checked : after (core 0x08 0) 0x030103 (fun t => t.regs.ra == 0x03) := by decide

/-- V-ALU-15: not is the negation, not the complement. -/
theorem test_not_negates : after (core 0x33 0x0F) 0x0D0102 (fun t => t.regs.ra == 0xF1) := by decide

/-- V-ALU-11: not(0) = 0. -/
theorem test_not_zero : after (core 0x33 0x00) 0x0D0102 (fun t => t.regs.ra == 0x00) := by decide

/-- V-ALU-16. -/
theorem test_and : after (core 0xF0 0x3C) 0x0A0102 (fun t => t.regs.ra == 0x30 && t.regs.rb == 0x3C) := by decide

/-- V-ALU-18. -/
theorem test_orr : after (core 0xF0 0x3C) 0x0B0102 (fun t => t.regs.ra == 0xFC && t.regs.rb == 0x3C) := by decide

/-- V-ALU-20. -/
theorem test_xor : after (core 0xF0 0x3C) 0x0C0102 (fun t => t.regs.ra == 0xCC && t.regs.rb == 0x3C) := by decide

/-- V-CMP-5: 0 against 1 sets V and S by the source's formula. -/
theorem test_cmp_zero_one : after (core 0 1) 0x040102
    (fun t => t.flagsNumber == 0b1001 && t.regs.ra == 0 && t.ip == 1) := by decide

/-- V-CMP-23: no V where a subtraction's overflow would set it (C4). -/
theorem test_cmp_no_subtraction_overflow : after (core 128 1) 0x040102 (fun t => t.flagsNumber == 0b0010) := by
  decide

/-- V-MEM-2: the top address. -/
theorem test_stm_top : after (core 0xFF 0x01) 0x050102
    (fun t => t.memRead 0xFF == 0x01 && t.memRead 0xFE == 0x00 && t.flags == flagsOf 0b1010) := by decide

/-- V-MEM-4: address and data from one register. -/
theorem test_stm_same_register : after (core 0x42 0x07) 0x050101 (fun t => t.mem == [(0x42, 0x42)]) := by decide

/-- V-MEM-7: the address is read before the register is written. -/
theorem test_ldm_same_register : after { core 0 0x20 with mem := [(0x20, 0x07)] } 0x060202
    (fun t => t.regs.rb == 0x07 && t.mem == [(0x20, 0x07)]) := by decide

/-- V-MEM-8: a byte never written reads as INIT_MEM's default. -/
theorem test_ldm_unwritten : after (core 0x55 0x33) 0x060102 (fun t => t.regs.ra == 0x00) := by decide

/-- V-BR-8: jmp's operand B is ignored. -/
theorem test_jmp_ignores_b : after (core 0 0) 0x0701EE (fun t => t.ip == 1 && t.hs == .running) := by decide

/-- V-BR-3: the largest target. -/
theorem test_jmp_255 : after (core 0 0) 0x07FF00 (fun t => t.ip == 255) := by decide

/-- V-BR-4: jne is taken on Z = 1. -/
theorem test_jne_taken : after { core 0 0 with flags := flagsOf 0b0100 } 0x080400 (fun t => t.ip == 4) := by decide

/-- V-BR-5: jne ignores S, C and V. -/
theorem test_jne_not_taken : after { core 0 0 with flags := flagsOf 0b1011 } 0x080400 (fun t => t.ip == 1) := by
  decide

/-- V-BR-6: jlt is taken on S = 1 (D8). -/
theorem test_jlt_taken : after { core 0 0 with flags := flagsOf 0b0001 } 0x090400 (fun t => t.ip == 4) := by decide

/-- V-BR-7: jlt ignores C, Z and V (D8). -/
theorem test_jlt_not_taken : after { core 0 0 with flags := flagsOf 0b1110 } 0x090400 (fun t => t.ip == 1) := by
  decide

/-- V-SYS-1: a write. -/
theorem test_sys_write : after { core 0x01 0x41 with wbud := 1 } 0x0E0000
    (fun t => t.out == [0x41] && t.wbud == 0 && t.regs.ra == 0x01 && t.ip == 1 && !t.halted) := by decide

/-- V-SYS-6: the input is used up while the budget is not (D15). -/
theorem test_sys_read_underrun : after { core 0x02 0 with rbud := 3 } 0x0E0000
    (fun t => t.regs.ra == 0xFE && t.rcur == 0 && t.rbud == 3 && t.ip == 0 && t.hs == .fault .readExhausted) := by
  decide

/-- V-DEC-4: mov faults. -/
theorem test_mov_faults : after (core 0x08 0) 0x0F0102
    (fun t => t.regs.ra == 0xFC && t.hs == .fault .badOpcode && t.ip == 0) := by decide

/-! Fetch, decode and construction. -/

/-- V-DEC-9: the opcode is judged before the registers. -/
theorem test_bad_opcode_first : after (core 0x08 0) 0x000303
    (fun t => t.regs.ra == 0xFC && t.hs == .fault .badOpcode && t.ip == 0) := by decide

/-- V-DEC-12: a bad register of stm, and no memory write. -/
theorem test_bad_register : after (core 0x08 0) 0x050180
    (fun t => t.regs.ra == 0xFB && t.hs == .fault .badRegister && t.mem == []) := by decide

/-- V-DEC-11: the empty image; also what the reset state's first step is. -/
theorem test_empty_image :
    (hostStep State.reset).2 = true ∧ (hostStep State.reset).1.hs = .fault .fetchRange ∧
      (hostStep State.reset).1.regs.ra = 0xFC := by decide

/-- R28: the reset state is the construction with nothing supplied. -/
theorem test_reset_is_construction :
    construct Params.default Init.default [] [] 0 0 = some State.reset := by decide

/-- R109: a truncated image and a negative budget are refused. -/
theorem test_construct_refuses :
    construct Params.default Init.default [0x0E, 0x00] [] 0 0 = none ∧
      construct Params.default Init.default [] [] (-1) 0 = none := by decide

/-! The assembler (V-ASM). -/

/-- V-ASM-1. -/
theorem test_asm_program :
    assembleText Params.default none "imm ra 5\nimm rb 3\nadd ra rb\nsys exit 0" =
      .ok [0x03, 0x01, 0x05, 0x03, 0x02, 0x03, 0x01, 0x01, 0x02, 0x0E, 0x08, 0x00] := by decide

/-- L1-E3: a forward label. -/
theorem test_asm_forward_label :
    assembleText Params.default none "jmp <end> 0\nimm ra 1\n<end>\nimm ra exit" =
      .ok [0x07, 0x02, 0x00, 0x03, 0x01, 0x01, 0x03, 0x01, 0x08] := by decide

/-- V-ASM-3: comments, blank lines and signs. -/
theorem test_asm_signs :
    assembleText Params.default none "# comment\n\nimm rc -0\nimm rd +7" =
      .ok [0x03, 0x04, 0x00, 0x03, 0x08, 0x07] := by decide

/-- V-ASM-10 and V-ASM-11: the slot capacity. -/
theorem test_asm_capacity :
    assembleText Params.default (some 3) "imm ra 1" = .ok [0x03, 0x01, 0x01, 0, 0, 0, 0, 0, 0] ∧
      assembleText Params.default (some 1) "imm ra 1\nimm ra 2" =
        .error { kind := .capacityError, lineNo := 2, line := "imm ra 2".toList } := by decide

/-- V-ASM-13 and V-ASM-14: a range error, and no hexadecimal. -/
theorem test_asm_operand_errors :
    assembleText Params.default none "imm ra -1" =
        .error { kind := .operandRangeError, lineNo := 1, line := "imm ra -1".toList } ∧
      assembleText Params.default none "imm ra 0x10" =
        .error { kind := .invalidOperand, lineNo := 1, line := "imm ra 0x10".toList } := by decide

/-- V-ASM-19 and V-ASM-21: a duplicate label, and an unknown mnemonic with its line. -/
theorem test_asm_line_errors :
    assembleText Params.default none "<a>\n<a>\nimm ra 1" =
        .error { kind := .duplicateLabel, lineNo := 2, line := "<a>".toList } ∧
      assembleText Params.default none "add ra 5\nfoo" =
        .error { kind := .unknownOpcode, lineNo := 2, line := "foo".toList } := by decide

/-! Witnesses: states and operands that meet the hypotheses of the statements. -/

/-- A running core with one record in its image. -/
def loaded (ra rb : Byte) (r : Record) : State := { core ra rb with imem := r.bytes }

/-- DecodeOfEncodeIsIdentity, DecodeClassifiesEveryRecord, the Encodes clauses: allowed parameters, register
codes at both ends, and bytes that are none. -/
theorem witness_codes :
    Params.default.Wf ∧ Params.default.regCode.code .ra = 0x01 ∧ Params.default.regCode.code .rf = 0x20 ∧
      NoRegister Params.default 0x00 ∧ NoRegister Params.default 0x40 := by
  refine ⟨by decide, rfl, rfl, ?_, ?_⟩ <;> intro q <;> cases q <;> decide

/-- DecodedRecordCarriesItsEncoding. -/
theorem witness_decoded : decode Params.default ⟨0x03, 0x20, 0xFF⟩ = .ok (.imm .rf 255) := by rfl

/-- IgnoredOperandsDoNotMatter: a branch whose byte B differs, and sys whose bytes both do. -/
theorem witness_ignored :
    kindB .jmp = .ign ∧ kindA .jmp = .lit ∧ (kindA .jmp ≠ .ign → (0x04 : Byte) = 0x04) ∧
      (kindB .jmp ≠ .ign → (0xEE : Byte) = 0x00) ∧ (kindA .sys ≠ .ign → (0xEE : Byte) = 0x00) := by decide

/-- CompareFlagsRelateToOperands: its three sign cases at their bounds 127, 128 and 255. -/
theorem witness_compare :
    (∃ t, exec (.cmp .ra .rb) (core 127 127) = .next t ∧ ((core 127 127).reg .ra).toNat < 128) ∧
      (∃ t, exec (.cmp .ra .rb) (core 128 255) = .next t ∧ 128 ≤ ((core 128 255).reg .ra).toNat ∧
        128 ≤ ((core 128 255).reg .rb).toNat) ∧
      (∃ t, exec (.cmp .ra .rb) (core 127 128) = .next t ∧
        ((core 127 128).reg .ra).getLsbD 7 ≠ ((core 127 128).reg .rb).getLsbD 7) :=
  ⟨⟨_, rfl, by decide⟩, ⟨_, rfl, by decide, by decide⟩, ⟨_, rfl, by decide⟩⟩

/-- FlagsPackIntoFourBits: the default positions and another choice. -/
theorem witness_flag_positions :
    (core 0 0).params.FlagPositionsDistinct ∧
      { Params.default with fpos := { s := 3, c := 2, z := 1, v := 0 } }.FlagPositionsDistinct := by decide

/-- StmStoresOneByte and LoadReturnsTheStoredByte: canonical memory, a load of the stored address and a load
of another, both at ends of the address space. -/
theorem witness_store_load :
    ({ core 0xFF 0x01 with mem := [(0, 7)] }).mem.wf = true ∧
      (∃ t u, exec (.stm .ra .rb) { core 0xFF 0x01 with mem := [(0, 7)] } = .next t ∧
        exec (.ldm .rc .ra) t = .next u ∧ (core 0xFF 0x01).reg .ra = (core 0xFF 0x01).reg .ra) ∧
      (∃ t u, exec (.stm .ra .rb) { core 0xFF 0x01 with mem := [(0, 7)] } = .next t ∧
        exec (.ldm .rc .rd) t = .next u ∧ (core 0xFF 0x01).reg .rd ≠ (core 0xFF 0x01).reg .ra) :=
  ⟨by decide, ⟨_, _, rfl, rfl, rfl⟩, ⟨_, _, rfl, rfl, by decide⟩⟩

/-- JltBranchesOnItsCondition, OnlyBranchesReadFlags: the default condition, and flags that agree on S. -/
theorem witness_jlt :
    (core 0 0).params.jltCond = Params.default.jltCond ∧ (flagsOf 0b1110).s = (core 0 0).flags.s ∧
      (flagsOf 0b0001).z = (core 0 0).flags.z := by decide

/-- SysWriteEmitsOrFaults: a budget of 1 and of 0. -/
theorem witness_sys_write :
    ({ core 0x01 0x41 with wbud := 1 }).reg .ra = Params.default.sel.write ∧
      ({ core 0x01 0x41 with wbud := 1 }).wbud ≠ 0 ∧ (core 0x01 0x41).wbud = 0 := by decide

/-- SysReadTakesInputOrFaults: input and budget left, no budget, and input used up. -/
theorem witness_sys_read :
    (core 0x02 0).params.SelectorsDistinct ∧ (core 0x02 0).reg .ra = (core 0x02 0).params.sel.read ∧
      ({ core 0x02 0 with rbud := 1, inBuf := [9] }).inBuf[0]? = some 9 ∧ (core 0x02 0).rbud = 0 ∧
      ({ core 0x02 0 with rbud := 1, inBuf := [9], rcur := 1 }).inBuf.length ≤ 1 := by decide

/-- SysExitHaltsAndChangesNothingElse, SysDispatchesOnFirstRegister, SysUnknownSelectorFaults: the exit
selector, an unknown one, and a sentinel. -/
theorem witness_sys_exit_unknown :
    (core 0x08 0).reg .ra = (core 0x08 0).params.sel.exit ∧
      (core 0x00 0).reg .ra ∉ (core 0x00 0).params.sel.toList ∧
      (core 0xFF 0).params.SelectorsNotSentinels ∧
      (core 0xFF 0).reg .ra = sentinelOf (core 0xFF 0).params.err .writeExhausted := by decide

/-- StepRunsTheDecodedInstruction, OutputGrowsOnlyByWrite. -/
theorem witness_step :
    (loaded 1 2 ⟨0x0E, 0xEE, 0xEE⟩).hs = .running ∧
      AtIp (loaded 1 2 ⟨0x0E, 0xEE, 0xEE⟩) ⟨0x0E, 0xEE, 0xEE⟩ ∧
      decode (loaded 1 2 ⟨0x0E, 0xEE, 0xEE⟩).params ⟨0x0E, 0xEE, 0xEE⟩ = .ok .sys ∧
      (loaded 1 2 ⟨0x0E, 0xEE, 0xEE⟩).params.OpcodesDistinct ∧
      ∃ t, step (loaded 1 2 ⟨0x0E, 0xEE, 0xEE⟩) = .next t :=
  ⟨rfl, ⟨rfl, rfl, rfl⟩, rfl, by decide, _, rfl⟩

/-- LoadedWordIsExecuted: from a halted core with an ip past its image. -/
theorem witness_loaded_word :
    decode ({ core 0 0 with ip := 3, hs := .exited }).params (recordOfTableWord 24 0x070400) = .ok (.jmp 4) := by
  rfl

/-- HaltedCoreIsAbsorbing: an exited and a faulted core. -/
theorem witness_halted :
    ({ core 8 0 with hs := .exited }).hs ≠ .running ∧ ({ core 8 0 with hs := .fault .badOpcode }).hs ≠ .running := by
  decide

/-- FetchPastTheImageFaults: ip exactly at NSLOTS. -/
theorem witness_fetch_past :
    ({ loaded 0 0 ⟨7, 1, 0⟩ with ip := 1 }).hs = .running ∧
      ({ loaded 0 0 ⟨7, 1, 0⟩ with ip := 1 }).nslots ≤ 1 := by decide

/-- UndecodableRecordFaults: an illegal opcode, and a bad operand A and B. -/
theorem witness_undecodable :
    ((loaded 0 0 ⟨0x10, 1, 2⟩).hs = .running ∧ AtIp (loaded 0 0 ⟨0x10, 1, 2⟩) ⟨0x10, 1, 2⟩ ∧
      ∀ m, (loaded 0 0 ⟨0x10, 1, 2⟩).params.opc.code m ≠ 0x10) ∧
    ((loaded 0 0 ⟨0x01, 0x03, 0x02⟩).hs = .running ∧
      AtIp (loaded 0 0 ⟨0x01, 0x03, 0x02⟩) ⟨0x01, 0x03, 0x02⟩ ∧
      (loaded 0 0 ⟨0x01, 0x03, 0x02⟩).params.OpcodesDistinct ∧
      (loaded 0 0 ⟨0x01, 0x03, 0x02⟩).params.opc.code .add = 0x01 ∧
      BadOperand (loaded 0 0 ⟨0x01, 0x03, 0x02⟩).params .add ⟨0x01, 0x03, 0x02⟩) ∧
    BadOperand Params.default .add ⟨0x01, 0x01, 0x40⟩ := by
  refine ⟨⟨rfl, ⟨rfl, rfl, rfl⟩, fun m => by cases m <;> decide⟩,
    ⟨rfl, ⟨rfl, rfl, rfl⟩, by decide, rfl, .inl ⟨rfl, ?_⟩⟩, .inr ⟨rfl, ?_⟩⟩ <;> intro q <;> cases q <;> decide

/-- StepFaultsExactlyOnTheirCauses and FaultsArePrecise: a step of a running core that ends in a fault, and one
that exits. -/
theorem witness_faulting_step :
    (∃ t, step (loaded 0 0 ⟨0x0E, 0, 0⟩) = .next t ∧ t.hs = .fault .badSyscall) ∧
      (∃ t, step (loaded 8 0 ⟨0x0E, 0, 0⟩) = .next t ∧ t.hs = .exited) ∧
      (loaded 0 0 ⟨0x0E, 0, 0⟩).params.Wf ∧ (loaded 8 0 ⟨0x0E, 0, 0⟩).hs = .running :=
  ⟨⟨_, rfl, rfl⟩, ⟨_, rfl, rfl⟩, by decide, rfl⟩

/-- A construction that succeeds, with every host-supplied argument used. -/
theorem witness_construct :
    ∃ s, construct Params.default Init.default [0x0E, 0, 0] [9] 1 2 = some s ∧ s.rbud = 1 ∧ s.wbud = 2 :=
  ⟨_, rfl, rfl, rfl⟩

/-- EveryStepKeepsTheInvariant, BudgetsAreConserved: the reset state meets the invariant and steps. -/
theorem witness_invariant : State.reset.Inv ∧ ∃ t, step State.reset = .next t :=
  ⟨⟨by decide, by decide, by decide, by decide, nofun, nofun⟩, _, rfl⟩

/-- OnlyCmpWritesFlags, OnlyTheListedInstructionsWriteRegisters, InstructionPointerAdvances: an instruction
that changes a flag, one that changes a register, and one that halts. -/
theorem witness_exec :
    (∃ t, exec (.cmp .ra .rb) (core 1 1) = .next t ∧ t.flags ≠ (core 1 1).flags) ∧
      (∃ t, exec (.add .ra .rb) (core 1 1) = .next t ∧ t.reg .ra ≠ (core 1 1).reg .ra ∧ t.hs = .running) ∧
      (∃ t, exec .sys (core 8 1) = .next t ∧ t.hs ≠ .running ∧ (core 8 1).hs = .running) :=
  ⟨⟨_, rfl, by decide⟩, ⟨_, rfl, by decide, rfl⟩, ⟨_, rfl, by decide, rfl⟩⟩

/-- OnlyStmWritesAndOnlyLdmReadsMemory: an instruction that is neither stm nor ldm, and a stm at the top
address, each from a memory that lists a cell, with another memory to put in its place. -/
theorem witness_memory_independence :
    (∃ t, exec (.add .ra .rb) { core 1 2 with mem := [(0, 7)] } = .next t) ∧
      (∀ rA rB, Instr.add .ra .rb ≠ .ldm rA rB ∧ Instr.add .ra .rb ≠ .stm rA rB) ∧
      (∃ t, exec (.stm .ra .rb) { core 0xFF 0x05 with mem := [(0, 7)] } = .next t) ∧
      ([(0xFF, 9)] : Memory) ≠ [(0, 7)] :=
  ⟨⟨_, rfl⟩, fun _ _ => ⟨nofun, nofun⟩, ⟨_, rfl⟩, by decide⟩

/-- CarryAndOverflowAreInvisible: the default condition reads neither C nor V, and two cores that differ in
both. -/
theorem witness_carry_overflow :
    (∀ f g : Flags, f.s = g.s → f.z = g.z → jltTaken Params.default f = jltTaken Params.default g) ∧
      SameButCarryOverflow (core 1 2) { core 1 2 with flags := flagsOf 0b0000 } := by
  refine ⟨?_, rfl, rfl, rfl⟩
  rintro ⟨a, b, c, d⟩ ⟨a', b', c', d'⟩
  revert a b c d a' b' c' d'
  decide

/-- UnreachableInputIsInvisible: two cores with a read budget of 1 and inputs that differ from the second
byte on. -/
theorem witness_unreachable_input :
    SameReachableInput { core 2 0 with rbud := 1, inBuf := [9, 10] }
      { core 2 0 with rbud := 1, inBuf := [9, 11, 12] } := by
  refine ⟨rfl, fun k hk => ?_⟩
  have : k = 0 := by simpa [core, State.reset] using hk
  subst this
  rfl

/-- OutputIsBoundedByTheWriteBudget, RunReturnsTheHaltedState: a constructed core that exits. -/
theorem witness_run :
    ∃ s, construct Params.default { Init.default with regs := { initRegs with ra := 8 } } [0x0E, 0, 0] [] 0 0 = some s ∧
      runToCompletion 1 s = some ([], { initRegs with ra := 8 }) := ⟨_, rfl, rfl⟩

/-- AssemblyEmitsOneRecordPerInstructionLine, PaddingFillsTheCapacity: a text that assembles, below, at and
above a capacity. -/
theorem witness_assembly :
    assemble Params.default none ["imm ra 1".toList, "sys 0 0".toList] =
      .ok [0x03, 0x01, 0x01, 0x0E, 0x00, 0x00] ∧ 6 ≤ 3 * 2 ∧ 3 * 1 < 6 := by decide

/-- OperandTokensResolveInOrder: a register, a syscall name, a label and integers at the ends of the range. -/
theorem witness_tokens :
    regNamed "rf".toList = some .rf ∧ regNamed "write".toList = none ∧
      (selectorNames Params.default).lookup "write".toList = some 0x01 ∧
      (selectorNames Params.default).lookup "<a>".toList = none ∧ regNamed "<a>".toList = none ∧
      ([("<a>".toList, 256)] : Labels).lookup "<a>".toList = some 256 ∧
      parseInteger "255".toList = some 255 ∧ parseInteger "-1".toList = some (-1) ∧
      parseInteger "0x10".toList = none := by decide

end Sys2Proof.Tests
end

namespace Sys2Proof.Machine

/-! The layer the state statements stand on: what a step can do with the instruction it ran, and which
relations between a state and its successor hold along a whole run. -/

/-- The register an instruction writes as its operand A names it (R15). The writes of ra by sys and by a
fault are not among them. -/
def destination : Instr → Option Reg
  | .add rA _ => some rA
  | .sub rA _ => some rA
  | .imm rA _ => some rA
  | .ldm rA _ => some rA
  | .and rA _ => some rA
  | .orr rA _ => some rA
  | .xor rA _ => some rA
  | .not rA _ => some rA
  | .cmp _ _ => none
  | .stm _ _ => none
  | .jmp _ => none
  | .jne _ => none
  | .jlt _ => none
  | .sys => none
  | .mov => none

/-- The instructions of the branch unit (R83). -/
def IsJump (i : Instr) : Prop := ∃ b, i = .jmp b ∨ i = .jne b ∨ i = .jlt b

/-- `Effect` with the instruction that makes the change: which instruction can do what. -/
inductive InstrEffect (s : State) : Instr → State → Prop where
  /-- operand A's register is written (R68, R82) -/
  | wrote {i : Instr} {r : Reg} (hi : destination i = some r) (v : Byte) :
      InstrEffect s i (s.setReg r v).advance
  /-- cmp replaces the flags (R78) -/
  | flagged (rA rB : Reg) (f : Flags) : InstrEffect s (.cmp rA rB) (s.setFlags f).advance
  /-- stm stores a byte (R81) -/
  | stored (rA rB : Reg) (a v : Byte) : InstrEffect s (.stm rA rB) (s.memWrite a v).advance
  /-- a branch is taken (R83) -/
  | jumped {i : Instr} (hi : IsJump i) (t : Byte) : InstrEffect s i (s.jumpTo t.toNat)
  /-- a branch falls through (R85, R86) -/
  | passed {i : Instr} (hi : IsJump i) : InstrEffect s i s.advance
  /-- sys emits rb (R90) -/
  | emitted (hsel : s.reg .ra = s.params.sel.write) (hw : s.wbud ≠ 0) :
      InstrEffect s .sys (s.emit (s.reg .rb)).advance
  /-- sys reads an input byte into ra (R91) -/
  | consumed (v : Byte) : InstrEffect s .sys (s.setReg .ra v).consumeInput.advance
  /-- sys exits (R92) -/
  | exited : InstrEffect s .sys (haltExit s)
  /-- sys or mov raises a halting fault (R93, R94) -/
  | raised {i : Instr} (hi : i = .sys ∨ i = .mov) (k : FaultKind) : InstrEffect s i (raiseFault k s)

/-- The registers of R15 that operand A names. -/
theorem destination_eq_some {i : Instr} {q : Reg} :
    destination i = some q ↔
      (∃ rB, i = .add q rB ∨ i = .sub q rB ∨ i = .not q rB ∨ i = .and q rB ∨ i = .orr q rB ∨ i = .xor q rB ∨
        i = .ldm q rB) ∨ ∃ lit, i = .imm q lit := by
  cases i <;> simp [destination]

theorem branchIf_instrEffect {i : Instr} (hi : IsJump i) (b : Bool) (t : Byte) (s : State) :
    InstrEffect s i (branchIf b t s) := by
  cases b
  · exact .passed hi
  · exact .jumped hi t

/-! The four ways sys dispatches on ra (R88, R89). -/

theorem execSys_write {s : State} (hw : s.reg .ra = s.params.sel.write) : execSys s = .next (sysWrite s) :=
  if_pos hw

theorem execSys_read {s : State} (hw : s.reg .ra ≠ s.params.sel.write) (hr : s.reg .ra = s.params.sel.read) :
    execSys s = .next (sysRead s) :=
  (if_neg hw).trans (if_pos hr)

theorem execSys_exit {s : State} (hw : s.reg .ra ≠ s.params.sel.write) (hr : s.reg .ra ≠ s.params.sel.read)
    (he : s.reg .ra = s.params.sel.exit) : execSys s = .next (haltExit s) :=
  (if_neg hw).trans ((if_neg hr).trans (if_pos he))

theorem execSys_unknown {s : State} (hw : s.reg .ra ≠ s.params.sel.write)
    (hr : s.reg .ra ≠ s.params.sel.read) (he : s.reg .ra ≠ s.params.sel.exit) :
    execSys s = .next (raiseFault .badSyscall s) :=
  (if_neg hw).trans ((if_neg hr).trans (if_neg he))

theorem sysWrite_instrEffect {s : State} (hsel : s.reg .ra = s.params.sel.write) :
    InstrEffect s .sys (sysWrite s) := by
  unfold sysWrite
  split
  · exact .raised (.inl rfl) _
  · exact .emitted hsel ‹_›

theorem sysRead_instrEffect (s : State) : InstrEffect s .sys (sysRead s) := by
  unfold sysRead
  split
  · exact .raised (.inl rfl) _
  · split
    · exact .raised (.inl rfl) _
    · exact .consumed _

theorem execSys_instrEffect {s t : State} (h : execSys s = .next t) : InstrEffect s .sys t := by
  simp only [execSys] at h
  split_ifs at h with hwrite <;> cases h
  · exact sysWrite_instrEffect hwrite
  · exact sysRead_instrEffect s
  · exact .exited
  · exact .raised (.inl rfl) _

/-- What an instruction that answers a next state did. -/
theorem exec_instrEffect {i : Instr} {s t : State} (h : exec i s = .next t) : InstrEffect s i t := by
  cases i with
  | cmp rA rB => cases h; exact .flagged rA rB _
  | stm rA rB => cases h; exact .stored rA rB _ _
  | jmp b => cases h; exact .jumped ⟨b, .inl rfl⟩ b
  | jne b => cases h; exact branchIf_instrEffect ⟨b, .inr (.inl rfl)⟩ _ b s
  | jlt b => cases h; exact branchIf_instrEffect ⟨b, .inr (.inr rfl)⟩ _ b s
  | sys => exact execSys_instrEffect h
  | mov => cases h; exact .raised (.inr rfl) _
  | _ => cases h; exact .wrote rfl _

/-- Without the instruction, it is one of the effects. -/
theorem exec_next_effect {i : Instr} {s t : State} (h : exec i s = .next t) : Effect s t := by
  obtain ⟨u, hu, he⟩ := exec_effect i s
  exact next_inj (hu.symm.trans h) ▸ he

/-- What a step that answers a next state did, with the record and the instruction it ran (R112). -/
theorem step_cases {s t : State} (h : step s = .next t) :
    t = s ∨ (∃ k, t = raiseFault k s) ∨
      ∃ r i, s.hs = .running ∧ AtIp s r ∧ decode s.params r = .ok i ∧ InstrEffect s i t := by
  by_cases hr : s.hs = .running
  · cases hf : fetch s s.ip with
    | none => exact .inr (.inl ⟨_, (next_inj ((step_fetchRange hr hf).symm.trans h)).symm⟩)
    | some r =>
      cases hd : decode s.params r with
      | error e => exact .inr (.inl ⟨_, (next_inj ((step_decodeError hr hf hd).symm.trans h)).symm⟩)
      | ok i =>
        have hi := exec_instrEffect ((step_exec hr hf hd).symm.trans h)
        exact .inr (.inr ⟨r, i, hr, fetch_eq_some_iff.1 hf, hd, hi⟩)
  · exact .inl (next_inj ((step_halted hr).symm.trans h)).symm

/-- A relation that every state has to itself and every effect makes holds across a step. -/
theorem step_rel {R : State → State → Prop} (hrefl : ∀ s, R s s) (heff : ∀ s t, Effect s t → R s t)
    {s t : State} (h : step s = .next t) : R s t := by
  rcases step_next h with ⟨_, rfl⟩ | ⟨_, he⟩
  · exact hrefl t
  · exact heff s t he

/-- If it is transitive too, it holds across any number of steps. -/
theorem stepMany_rel {R : State → State → Prop} (hrefl : ∀ s, R s s)
    (htrans : ∀ s t u, R s t → R t u → R s u) (heff : ∀ s t, Effect s t → R s t) (n : Nat) (s : State) :
    R s (stepMany n s) :=
  stepMany_induction (P := R s) (fun t u hst ht => htrans s t u hst (step_rel hrefl heff ht)) n s (hrefl s)

/-- A halted core stays as it is over any number of steps (R114). -/
theorem stepMany_halted {s : State} (h : s.hs ≠ .running) (n : Nat) : stepMany n s = s := by
  refine stepMany_induction (P := (· = s)) ?_ n s rfl
  rintro _ t rfl ht
  exact (next_inj ((step_halted h).symm.trans ht)).symm

/-- A relation between two runs that every step keeps holds after any number of steps. -/
theorem stepMany_simulation {R : State → State → Prop}
    (hR : ∀ s s' t, R s s' → step s = .next t → ∃ t', step s' = .next t' ∧ R t t') (n : Nat) :
    ∀ s s', R s s' → R (stepMany n s) (stepMany n s') := by
  induction n with
  | zero => exact fun _ _ h => h
  | succ n ih =>
    intro s s' h
    obtain ⟨t, ht, _⟩ := step_effect s
    obtain ⟨t', ht', h'⟩ := hR s s' t h ht
    rw [stepMany_succ ht, stepMany_succ ht']
    exact ih t t' h'

/-! What every effect keeps: the read-only parts, the budgets' sums, the cursor and the invariant. -/

theorem SameFixed.refl (s : State) : SameFixed s s := ⟨rfl, rfl, rfl⟩

theorem SameFixed.trans {s t u : State} (h : SameFixed s t) (h' : SameFixed t u) : SameFixed s u := by
  obtain ⟨hm, hi, hp⟩ := h
  obtain ⟨hm', hi', hp'⟩ := h'
  exact ⟨hm'.trans hm, hi'.trans hi, hp'.trans hp⟩

/-- No effect writes the image, the input or the parameters (R6, R22, R23). -/
theorem Effect.sameFixed {s t : State} (h : Effect s t) : SameFixed s t := by
  cases h <;> exact ⟨rfl, rfl, rfl⟩

/-- The I/O budgets across a step or a run, R27 (d) and (e). -/
def BudgetsSpent (s t : State) : Prop :=
  t.rbud ≤ s.rbud ∧ t.wbud ≤ s.wbud ∧ t.rbud + t.rcur = s.rbud + s.rcur ∧
    t.wbud + t.out.length = s.wbud + s.out.length

theorem BudgetsSpent.refl (s : State) : BudgetsSpent s s := ⟨le_rfl, le_rfl, rfl, rfl⟩

theorem BudgetsSpent.trans {s t u : State} (h : BudgetsSpent s t) (h' : BudgetsSpent t u) :
    BudgetsSpent s u := by
  obtain ⟨hr, hw, hrs, hws⟩ := h
  obtain ⟨hr', hw', hrs', hws'⟩ := h'
  exact ⟨hr'.trans hr, hw'.trans hw, hrs'.trans hrs, hws'.trans hws⟩

/-- Only a write and a read touch the budgets, and each moves one unit (R90, R91). -/
theorem Effect.budgetsSpent {s t : State} (h : Effect s t) : BudgetsSpent s t := by
  cases h with
  | emitted hw => simp [BudgetsSpent]; omega
  | consumed v hr hv => simp [BudgetsSpent]; omega
  | _ => exact BudgetsSpent.refl s

theorem step_sameFixed {s t : State} (h : step s = .next t) : SameFixed s t :=
  step_rel .refl (fun _ _ => Effect.sameFixed) h

theorem step_budgetsSpent {s t : State} (h : step s = .next t) : BudgetsSpent s t :=
  step_rel .refl (fun _ _ => Effect.budgetsSpent) h

theorem stepMany_budgetsSpent (n : Nat) (s : State) : BudgetsSpent s (stepMany n s) :=
  stepMany_rel .refl (fun _ _ _ => .trans) (fun _ _ => Effect.budgetsSpent) n s

/-- A read that succeeds had a byte left at the cursor, so the cursor stays inside the input (R91). -/
theorem Effect.cursorInInput {s t : State} (h : Effect s t) (hs : s.rcur ≤ s.inBuf.length) :
    t.rcur ≤ t.inBuf.length := by
  cases h with
  | consumed v hr hv => exact (List.getElem?_eq_some_iff.1 hv).1
  | _ => exact hs

/-- Every effect keeps the canonical form of memory (entry 10). -/
theorem Effect.memCanonical {s t : State} (h : Effect s t) (hs : s.mem.wf = true) : t.mem.wf = true := by
  cases h with
  | stored a v => exact wf_write hs a v
  | _ => exact hs

/-- An effect that faults a running core leaves the fault's sentinel in ra (R95). -/
theorem Effect.faultSentinel {s t : State} (h : Effect s t) (hs : s.hs = .running) {k : FaultKind}
    (hk : t.hs = .fault k) : t.reg .ra = sentinelOf s.params.err k := by
  cases h with
  | exited => cases hk
  | raised j => cases hk; rfl
  | _ => nomatch hs.symm.trans hk

/-- An effect that makes a running core exit leaves the exit selector in ra (R92). -/
theorem Effect.exitSelector {s t : State} (h : Effect s t) (hs : s.hs = .running) (ht : t.hs = .exited) :
    t.reg .ra = s.params.sel.exit := by
  cases h with
  | exited hsel => exact hsel
  | raised j => cases ht
  | _ => nomatch hs.symm.trans ht

/-- An effect on a running core keeps the invariant. -/
theorem Effect.inv {s t : State} (h : Effect s t) (hr : s.hs = .running) (hs : s.Inv) : t.Inv := by
  obtain ⟨himem, _, hparams⟩ := h.sameFixed
  exact {
    memCanonical := h.memCanonical hs.memCanonical
    cursorInInput := h.cursorInInput hs.cursorInInput
    wholeRecords := himem ▸ hs.wholeRecords
    paramsWf := hparams ▸ hs.paramsWf
    faultSentinel := fun _ hk => hparams ▸ h.faultSentinel hr hk
    exitSelector := fun ht => hparams ▸ h.exitSelector hr ht }

/-- Settles O35: each kind of effect keeps each clause, and a halted core does not move. -/
theorem everyStepKeepsTheInvariant : Obligations.EveryStepKeepsTheInvariant := by
  intro s t hs h
  rcases step_next h with ⟨_, rfl⟩ | ⟨hr, he⟩
  · exact hs
  · exact he.inv hr hs

/-- Settles O36, from the two effects that touch a budget. -/
theorem budgetsAreConserved : Obligations.BudgetsAreConserved := fun _ _ => step_budgetsSpent

/-- Settles O43: no effect writes them, and the relation is lifted to runs. -/
theorem storeInputAndParametersNeverChange : Obligations.StoreInputAndParametersNeverChange := by
  rintro s _ n rfl
  exact stepMany_rel .refl (fun _ _ _ => .trans) (fun _ _ => Effect.sameFixed) n s

/-! What a program cannot see: replacing the flags and the input buffer by others that agree on what the
program reads changes nothing else in the next state. -/

/-- The state with other flags and another input buffer. -/
def State.withUnseen (s : State) (f : Flags) (b : List Byte) : State := { s with flags := f, inBuf := b }

@[simp] theorem withUnseen_flags (s : State) (f : Flags) (b : List Byte) : (s.withUnseen f b).flags = f := rfl
@[simp] theorem withUnseen_inBuf (s : State) (f : Flags) (b : List Byte) : (s.withUnseen f b).inBuf = b := rfl
@[simp] theorem withUnseen_rcur (s : State) (f : Flags) (b : List Byte) : (s.withUnseen f b).rcur = s.rcur := rfl
@[simp] theorem withUnseen_rbud (s : State) (f : Flags) (b : List Byte) : (s.withUnseen f b).rbud = s.rbud := rfl
@[simp] theorem withUnseen_wbud (s : State) (f : Flags) (b : List Byte) : (s.withUnseen f b).wbud = s.wbud := rfl
@[simp] theorem withUnseen_params (s : State) (f : Flags) (b : List Byte) :
    (s.withUnseen f b).params = s.params := rfl

@[simp] theorem raiseFault_withUnseen (k : FaultKind) (s : State) (f : Flags) (b : List Byte) :
    raiseFault k (s.withUnseen f b) = (raiseFault k s).withUnseen f b := rfl

/-- An input buffer that agrees with a state's own on every byte the read budget can reach. -/
def SameReach (s : State) (b : List Byte) : Prop := ∀ k, k < s.rcur + s.rbud → b[k]? = s.inBuf[k]?

theorem sysWrite_withUnseen (s : State) (f : Flags) (b : List Byte) :
    sysWrite (s.withUnseen f b) = (sysWrite s).withUnseen f b := by
  by_cases hw : s.wbud = 0
  · simp [sysWrite, hw]
  · simp only [sysWrite, withUnseen_wbud, hw, if_false]; rfl

/-- A read looks at the input only with budget left, and then inside the budget's reach (R91). -/
theorem sysRead_withUnseen {s : State} {b : List Byte} (f : Flags) (hb : SameReach s b) :
    sysRead (s.withUnseen f b) = (sysRead s).withUnseen f b := by
  by_cases hr : s.rbud = 0
  · simp [sysRead, hr]
  · have hcur : b[s.rcur]? = s.inBuf[s.rcur]? := hb s.rcur (by omega)
    simp only [sysRead, withUnseen_rbud, withUnseen_inBuf, withUnseen_rcur, hr, if_false, hcur]
    cases s.inBuf[s.rcur]? <;> rfl

theorem execSys_withUnseen {s t : State} {b : List Byte} (f : Flags) (hb : SameReach s b)
    (h : execSys s = .next t) : execSys (s.withUnseen f b) = .next (t.withUnseen f b) := by
  by_cases hw : s.reg .ra = s.params.sel.write
  · cases (execSys_write hw).symm.trans h
    rw [execSys_write (s := s.withUnseen f b) hw, sysWrite_withUnseen]
  by_cases hr : s.reg .ra = s.params.sel.read
  · cases (execSys_read hw hr).symm.trans h
    rw [execSys_read (s := s.withUnseen f b) hw hr, sysRead_withUnseen f hb]
  by_cases he : s.reg .ra = s.params.sel.exit
  · cases (execSys_exit hw hr he).symm.trans h
    exact execSys_exit hw hr he
  · cases (execSys_unknown hw hr he).symm.trans h
    exact execSys_unknown hw hr he

/-- A branch whose condition has the same answer goes the same way. -/
theorem branchIf_withUnseen (taken : Bool) (c : Byte) (s : State) (f : Flags) (b : List Byte) :
    branchIf taken c (s.withUnseen f b) = (branchIf taken c s).withUnseen f b := by
  cases taken <;> rfl

/-- What an instruction answers under other flags and another input buffer, whenever the flags agree on the
condition it reads: every instruction but cmp carries them through (R20). -/
theorem exec_withUnseen {i : Instr} {s t : State} {f : Flags} {b : List Byte} (hb : SameReach s b)
    (hcmp : ∀ rA rB, i ≠ .cmp rA rB) (hjne : ∀ c, i = .jne c → jneTaken f = jneTaken s.flags)
    (hjlt : ∀ c, i = .jlt c → jltTaken s.params f = jltTaken s.params s.flags)
    (h : exec i s = .next t) : exec i (s.withUnseen f b) = .next (t.withUnseen f b) := by
  cases i with
  | cmp rA rB => exact absurd rfl (hcmp rA rB)
  | jne c =>
    cases h
    simp only [exec, execJne, withUnseen_flags, hjne c rfl, branchIf_withUnseen]
  | jlt c =>
    cases h
    simp only [exec, execJlt, withUnseen_flags, withUnseen_params, hjlt c rfl, branchIf_withUnseen]
  | sys => exact execSys_withUnseen f hb h
  | _ => cases h; rfl

/-- cmp answers flags that do not depend on the old ones (R19). -/
theorem execCmp_withUnseen {rA rB : Reg} {s t : State} (f : Flags) (b : List Byte)
    (h : exec (.cmp rA rB) s = .next t) :
    exec (.cmp rA rB) (s.withUnseen f b) = .next (t.withUnseen t.flags b) := by
  cases h; rfl

/-- Only cmp changes the flags (R19). -/
theorem InstrEffect.flags {i : Instr} {s t : State} (h : InstrEffect s i t) :
    (∃ rA rB, i = .cmp rA rB) ∨ t.flags = s.flags := by
  cases h with
  | flagged rA rB f => exact .inl ⟨rA, rB, rfl⟩
  | _ => exact .inr rfl

/-- Over a step, the other flags are carried along while the state's own stay, or both become the ones a cmp
computed. -/
theorem step_withUnseen {s t : State} {f : Flags} {b : List Byte} (hb : SameReach s b)
    (hjne : jneTaken f = jneTaken s.flags) (hjlt : jltTaken s.params f = jltTaken s.params s.flags)
    (h : step s = .next t) :
    ∃ g, step (s.withUnseen f b) = .next (t.withUnseen g b) ∧ ((g = f ∧ t.flags = s.flags) ∨ g = t.flags) := by
  by_cases hr : s.hs = .running
  · cases hf : fetch s s.ip with
    | none =>
      cases (step_fetchRange hr hf).symm.trans h
      exact ⟨f, step_fetchRange (s := s.withUnseen f b) hr hf, .inl ⟨rfl, rfl⟩⟩
    | some r =>
      cases hd : decode s.params r with
      | error e =>
        cases (step_decodeError hr hf hd).symm.trans h
        exact ⟨f, step_decodeError (s := s.withUnseen f b) hr hf hd, .inl ⟨rfl, rfl⟩⟩
      | ok i =>
        have hi : exec i s = .next t := (step_exec hr hf hd).symm.trans h
        rw [step_exec (s := s.withUnseen f b) hr hf hd]
        by_cases hcmp : ∃ rA rB, i = .cmp rA rB
        · obtain ⟨rA, rB, rfl⟩ := hcmp
          exact ⟨t.flags, execCmp_withUnseen f b hi, .inr rfl⟩
        · refine ⟨f, exec_withUnseen hb (fun rA rB h => hcmp ⟨rA, rB, h⟩) (fun _ _ => hjne)
            (fun _ _ => hjlt) hi, .inl ⟨rfl, ?_⟩⟩
          exact (exec_instrEffect hi).flags.resolve_left hcmp
  · cases (step_halted hr).symm.trans h
    exact ⟨f, step_halted (s := s.withUnseen f b) hr, .inl ⟨rfl, rfl⟩⟩

theorem withUnseen_own_inBuf {s : State} {b : List Byte} (f : Flags) (hb : s.inBuf = b) :
    s.withUnseen f b = { s with flags := f } := by
  subst hb; rfl

/-- JLT_COND reads neither C nor V. -/
def ReadsOnlySignAndZero (p : Params) : Prop :=
  ∀ f g : Flags, f.s = g.s → f.z = g.z → jltTaken p f = jltTaken p g

theorem step_sameButCarryOverflow {s s' t : State} (hp : ReadsOnlySignAndZero s.params)
    (h : SameButCarryOverflow s s') (ht : step s = .next t) :
    ∃ t', step s' = .next t' ∧ SameButCarryOverflow t t' := by
  obtain ⟨hs', hS, hZ⟩ := h
  obtain ⟨_, hin, _⟩ := step_sameFixed ht
  obtain ⟨g, hg, hcase⟩ :=
    step_withUnseen (b := s.inBuf) (fun _ _ => rfl) hZ (hp s'.flags s.flags hS hZ) ht
  rw [withUnseen_own_inBuf _ rfl, ← hs', withUnseen_own_inBuf _ hin] at hg
  refine ⟨_, hg, rfl, ?_⟩
  rcases hcase with ⟨rfl, hflags⟩ | rfl
  · exact ⟨hS.trans (by rw [hflags]), hZ.trans (by rw [hflags])⟩
  · exact ⟨rfl, rfl⟩

/-- Settles O45: C and V are carried along by every step but a cmp, which replaces them by values that do
not depend on them. -/
theorem carryAndOverflowAreInvisible : Obligations.CarryAndOverflowAreInvisible := by
  intro s s' n hp h
  refine (stepMany_simulation (R := fun s s' => ReadsOnlySignAndZero s.params ∧ SameButCarryOverflow s s')
    ?_ n s s' ⟨hp, h⟩).2
  rintro s s' t ⟨hp, h⟩ ht
  obtain ⟨t', ht', h'⟩ := step_sameButCarryOverflow hp h ht
  obtain ⟨_, _, hparams⟩ := step_sameFixed ht
  exact ⟨t', ht', hparams ▸ hp, h'⟩

theorem step_sameReachableInput {s s' t : State} (h : SameReachableInput s s') (ht : step s = .next t) :
    ∃ t', step s' = .next t' ∧ SameReachableInput t t' := by
  obtain ⟨hs', hreach⟩ := h
  obtain ⟨g, hg, hcase⟩ := step_withUnseen (f := s.flags) hreach rfl rfl ht
  obtain ⟨_, _, hsum, _⟩ := step_budgetsSpent ht
  obtain ⟨_, hin, _⟩ := step_sameFixed ht
  have hgt : g = t.flags := by
    rcases hcase with ⟨rfl, hflags⟩ | rfl
    · exact hflags.symm
    · rfl
  subst hgt
  refine ⟨t.withUnseen t.flags s'.inBuf, hs' ▸ hg, rfl, fun k hk => ?_⟩
  rw [withUnseen_inBuf, hin]
  exact hreach k (by omega)

/-- Settles O46: RCUR + RBUD is conserved, so what no read could reach before a step none can after it. -/
theorem unreachableInputIsInvisible : Obligations.UnreachableInputIsInvisible := fun s s' n h =>
  stepMany_simulation (fun _ _ _ => step_sameReachableInput) n s s' h

/-- Under flags that agree on what an instruction reads, it answers the same state but for the flags. -/
theorem exec_withFlags {i : Instr} {s t : State} {f : Flags} (hcmp : ∀ rA rB, i ≠ .cmp rA rB)
    (hjne : ∀ c, i = .jne c → jneTaken f = jneTaken s.flags)
    (hjlt : ∀ c, i = .jlt c → jltTaken s.params f = jltTaken s.params s.flags)
    (h : exec i s = .next t) : exec i { s with flags := f } = .next { t with flags := f } := by
  obtain ⟨_, hin, _⟩ := (exec_next_effect h).sameFixed
  rw [← withUnseen_own_inBuf f hin]
  exact exec_withUnseen (fun _ _ => rfl) hcmp hjne hjlt h

/-- The default JLT_COND is the sign flag (R86). -/
theorem jltTaken_default {p : Params} (hp : p.jltCond = Params.default.jltCond) (f : Flags) :
    jltTaken p f = f.s := by
  obtain ⟨s, c, z, v⟩ := f
  rw [jltTaken, hp]
  revert s c z v
  decide

/-- Settles O38, from the effects of the instructions and cmp's formula. -/
theorem onlyCmpWritesFlags : Obligations.OnlyCmpWritesFlags := by
  refine ⟨fun i s t h hne => (exec_instrEffect h).flags.resolve_right hne, fun rA rB s t f h => ?_⟩
  cases h; rfl

/-- Settles O39: cmp computes its flags from registers, and every other instruction carries F through. -/
theorem onlyBranchesReadFlags : Obligations.OnlyBranchesReadFlags := by
  refine ⟨fun i s t f hi h => ?_, fun b s t f hz h => ?_, fun b s t f hp hs h => ?_⟩
  · by_cases hcmp : ∃ rA rB, i = .cmp rA rB
    · obtain ⟨rA, rB, rfl⟩ := hcmp
      exact ⟨t.flags, onlyCmpWritesFlags.2 rA rB s t f h, .inr rfl⟩
    · exact ⟨f, exec_withFlags (fun rA rB h => hcmp ⟨rA, rB, h⟩) (fun c hc => absurd hc (hi c).1)
        (fun c hc => absurd hc (hi c).2) h, .inl rfl⟩
  · exact exec_withFlags nofun (fun _ _ => hz) nofun h
  · exact exec_withFlags nofun nofun (fun _ _ => by rw [jltTaken_default hp, jltTaken_default hp, hs]) h

/-! Which instruction writes a register, moves ip and grows the output. -/

/-- Settles O41, from the effects of the instructions. -/
theorem onlyTheListedInstructionsWriteRegisters : Obligations.OnlyTheListedInstructionsWriteRegisters := by
  intro i s t q h hne
  have hra {u : State} (hset : ∀ q, q ≠ .ra → u.reg q = s.reg q) (hu : u.reg q ≠ s.reg q) : q = .ra :=
    not_imp_comm.1 (hset q) hu
  cases exec_instrEffect h with
  | @wrote _ r hi v =>
    have hq : q = r := not_imp_comm.1 (setReg_reg_other s r q v) hne
    subst hq
    exact (destination_eq_some.1 hi).elim .inl (.inr ∘ .inl)
  | consumed v => exact .inr (.inr (.inl ⟨hra (setReg_reg_other s .ra · v) hne, rfl⟩))
  | raised hi k =>
    have hq := hra (raiseFault_reg_other k s) hne
    exact .inr (.inr (hi.imp (⟨hq, ·⟩) (⟨hq, ·⟩)))
  | _ => exact absurd rfl hne

/-- Settles O42, from the effects of the instructions. -/
theorem instructionPointerAdvances : Obligations.InstructionPointerAdvances := by
  intro i s t hs h
  have hjump (hi : IsJump i) : ¬ ∀ b, i ≠ .jmp b ∧ i ≠ .jne b ∧ i ≠ .jlt b := by
    obtain ⟨b, rfl | rfl | rfl⟩ := hi <;> intro hn <;> simpa using hn b
  cases exec_instrEffect h with
  | jumped hi c => exact ⟨fun _ hn => absurd hn (hjump hi), absurd hs⟩
  | passed hi => exact ⟨fun _ _ => rfl, absurd hs⟩
  | exited => exact ⟨nofun, fun _ => rfl⟩
  | raised hi k => exact ⟨nofun, fun _ => rfl⟩
  | _ => exact ⟨fun _ _ => rfl, absurd hs⟩

/-- Only a sys with the write selector and a budget changes the output, by one byte (R90). -/
theorem InstrEffect.out {i : Instr} {s t : State} (h : InstrEffect s i t) :
    t.out = s.out ∨ (t.out = s.out ++ [s.reg .rb] ∧ t.wbud + 1 = s.wbud ∧ i = .sys ∧
      s.reg .ra = s.params.sel.write) := by
  cases h with
  | emitted hsel hw => exact .inr ⟨rfl, Nat.sub_add_cancel (Nat.pos_of_ne_zero hw), rfl, hsel⟩
  | _ => exact .inl rfl

/-- Settles O44: a step that changes OUT ran a sys, whose record carries its opcode. -/
theorem outputGrowsOnlyByWrite : Obligations.OutputGrowsOnlyByWrite := by
  intro s t _ h
  rcases step_cases h with rfl | ⟨k, rfl⟩ | ⟨r, i, hr, hat, hd, hi⟩
  · exact .inl rfl
  · exact .inl rfl
  · rcases hi.out with hout | ⟨hout, hw, rfl, hsel⟩
    · exact .inl hout
    · exact .inr ⟨hout, hw, hr, hsel, r, hat, (code_of_mnemonicOf (mnemonicOf_decoded hd)).symm⟩

/-! Construction, and what holds of every state a constructed core reaches. -/

/-- What a construction that is not refused checked, and the core it answers (R28, R108, R109). -/
theorem construct_eq_some {p : Params} {init : Init} {image input : List Byte} {rb wb : Int} {s : State}
    (h : construct p init image input rb wb = some s) :
    image.length % 3 = 0 ∧ 0 ≤ rb ∧ 0 ≤ wb ∧
      s = { regs := init.regs, ip := 0, flags := init.flags,
            mem := Memory.ofBytes 0 (init.mem.take Config.memSize), imem := image, inBuf := input,
            rcur := 0, rbud := rb.toNat, wbud := wb.toNat, out := [], hs := .running, params := p } := by
  unfold construct at h
  split_ifs at h with hc
  obtain ⟨himage, hrb, hwb⟩ := hc
  exact ⟨by simpa [imageWf, Config.recordLength] using himage, hrb, hwb, (Option.some.inj h).symm⟩

/-- A constructed memory reads as the listed bytes, and 0 past them (R28). -/
theorem read_constructed (vs : List Byte) (x : Byte) :
    Memory.read (Memory.ofBytes 0 (vs.take Config.memSize)) x.toNat = vs.getD x.toNat 0 := by
  have h := read_ofBytes (vs.take Config.memSize) 0 x.toNat (by simp [Config.memSize])
  rw [Nat.zero_add] at h
  rw [h, List.getD_eq_getElem?_getD, List.getD_eq_getElem?_getD,
    List.getElem?_take_of_lt (show x.toNat < Config.memSize from x.isLt)]
  rfl

/-- Settles O47, from the core a construction answers. -/
theorem constructionGivesEveryValue : Obligations.ConstructionGivesEveryValue := by
  intro p init image input rb wb s h
  obtain ⟨_, hrb, hwb, rfl⟩ := construct_eq_some h
  exact ⟨rfl, rfl, read_constructed init.mem, rfl, rfl, rfl, rfl, rfl, Int.toNat_of_nonneg hrb,
    Int.toNat_of_nonneg hwb, rfl, rfl, rfl⟩

theorem construct_inv {p : Params} {init : Init} {image input : List Byte} {rb wb : Int} {s : State}
    (hp : p.Wf) (h : construct p init image input rb wb = some s) : s.Inv := by
  obtain ⟨himage, _, _, rfl⟩ := construct_eq_some h
  exact ⟨wf_ofBytes init.mem, Nat.zero_le _, himage, hp, nofun, nofun⟩

/-- Settles O34: the reset state is a construction too. -/
theorem invariantHoldsAtConstruction : Obligations.InvariantHoldsAtConstruction :=
  ⟨construct_inv (init := .default) (image := []) (input := []) (rb := 0) (wb := 0) default_wf rfl,
    fun _ _ _ _ _ _ _ => construct_inv⟩

/-- The budgets a core was constructed with are what is left and what is used, however far it ran, R27 (e). -/
theorem construct_budgets {p : Params} {init : Init} {image input : List Byte} {rb wb : Int} {s : State}
    (h : construct p init image input rb wb = some s) (n : Nat) :
    ((stepMany n s).rbud + (stepMany n s).rcur : Int) = rb ∧
      ((stepMany n s).wbud + (stepMany n s).out.length : Int) = wb := by
  obtain ⟨_, _, hr, hw⟩ := stepMany_budgetsSpent n s
  obtain ⟨_, hrb, hwb, rfl⟩ := construct_eq_some h
  simp only [List.length_nil] at hr hw
  omega

/-- A running core has a valid slot, or its next step raises FETCH_RANGE, R27 (c). -/
theorem running_slot_or_fetchRange {s : State} (h : s.hs = .running) :
    s.ip < s.nslots ∨ ∃ t, step s = .next t ∧ Raised .fetchRange s t :=
  (Nat.lt_or_ge s.ip s.nslots).imp_right fun hn =>
    ⟨_, step_fetchRange h (fetch_eq_none.2 hn), raiseFault_raised _ _⟩

/-- Settles O37, clause by clause. -/
theorem reachedStatesKeepR27 : Obligations.ReachedStatesKeepR27 := by
  rintro p init image input rb wb s n h _ rfl
  obtain ⟨hrsum, hwsum⟩ := construct_budgets h n
  have hcur : s.rcur ≤ s.inBuf.length := by
    obtain ⟨_, _, _, rfl⟩ := construct_eq_some h
    exact Nat.zero_le _
  refine ⟨fun q => Nat.le_of_lt_succ (State.reg _ q).isLt, fun x => Nat.le_of_lt_succ (State.memRead _ x).isLt,
    Nat.le_of_lt_succ (State.flagsNumber _).isLt, running_slot_or_fetchRange, fun m => ?_, hrsum, hwsum,
    ?_, stepMany_halted⟩
  · obtain ⟨hr, hw, _, _⟩ := stepMany_budgetsSpent m (stepMany n s)
    exact ⟨hr, hw⟩
  · exact stepMany_rel (R := fun s t => s.rcur ≤ s.inBuf.length → t.rcur ≤ t.inBuf.length)
      (fun _ => id) (fun _ _ _ h h' => h' ∘ h) (fun _ _ => Effect.cursorInInput) n s hcur

/-- A run that ends returns the output and the registers of a state it reached (R115). -/
theorem runToCompletion_reaches {fuel : Nat} {s : State} {result : List Byte × Regs}
    (h : runToCompletion fuel s = some result) :
    ∃ k, result = ((stepMany k s).out, (stepMany k s).regs) := by
  induction fuel generalizing s with
  | zero => cases h
  | succ fuel ih =>
    obtain ⟨t, ht, _⟩ := step_effect s
    rw [runToCompletion, hostStep_eq ht] at h
    cases hh : t.halted <;> rw [hh] at h
    · obtain ⟨k, hk⟩ := ih h
      exact ⟨k + 1, by rw [stepMany_succ ht, hk]⟩
    · exact ⟨1, by rw [stepMany_succ ht]; exact (Option.some.inj h).symm⟩

/-- Settles O50: #OUT is at most WBUD + #OUT, which is the budget given at construction. -/
theorem outputIsBoundedByTheWriteBudget : Obligations.OutputIsBoundedByTheWriteBudget := by
  intro p init image input rb wb s fuel output regs h hrun
  obtain ⟨k, hk⟩ := runToCompletion_reaches hrun
  obtain ⟨rfl, _⟩ := Prod.mk.inj hk
  obtain ⟨_, hsum⟩ := construct_budgets h k
  omega

/-! F as a number (R18). -/

/-- Adding a power of two whose bit is clear sets that bit and leaves the others. -/
theorem testBit_add_two_pow {n p : Nat} (h : n.testBit p = false) (q : Nat) :
    (n + 2 ^ p).testBit q = (n.testBit q || decide (p = q)) := by
  induction p generalizing n q with
  | zero =>
    have hn : n % 2 = 0 := by simpa [Nat.testBit_zero] using h
    cases q with
    | zero => simp [Nat.testBit_zero]; omega
    | succ q =>
      have hdiv : (n + 1) / 2 = n / 2 := by omega
      simp [Nat.testBit_succ, hdiv]
  | succ p ih =>
    rw [Nat.testBit_succ] at h
    cases q with
    | zero => simp [Nat.testBit_zero, Nat.pow_succ, Nat.add_mul_mod_self_right]
    | succ q =>
      have hdiv : (n + 2 ^ (p + 1)) / 2 = n / 2 + 2 ^ p := by omega
      simp [Nat.testBit_succ, hdiv, ih h]

/-- A flag added at a clear position is read back there, and no other bit changes. -/
theorem testBit_add_flag {n p : Nat} (h : n.testBit p = false) (b : Bool) (q : Nat) :
    (n + b.toNat * 2 ^ p).testBit q = (n.testBit q || (b && decide (p = q))) := by
  cases b
  · simp
  · simpa using testBit_add_two_pow h q

/-- The sum that defines F as a number, before it is cut to four bits (R18). -/
def flagSum (pos : FlagPositions) (f : Flags) : Nat :=
  f.s.toNat * 2 ^ pos.s.val + f.c.toNat * 2 ^ pos.c.val + f.z.toNat * 2 ^ pos.z.val + f.v.toNat * 2 ^ pos.v.val

theorem packFlags_eq (pos : FlagPositions) (f : Flags) : packFlags pos f = BitVec.ofNat 4 (flagSum pos f) := rfl

theorem flagPositions_ne {pos : FlagPositions} (hd : [pos.s, pos.c, pos.z, pos.v].Nodup) :
    (pos.s.val ≠ pos.c.val ∧ pos.s.val ≠ pos.z.val ∧ pos.s.val ≠ pos.v.val) ∧
      (pos.c.val ≠ pos.z.val ∧ pos.c.val ≠ pos.v.val) ∧ pos.z.val ≠ pos.v.val := by
  simpa [Fin.ext_iff] using hd

/-- At distinct positions, the bits of the sum are exactly the flags. -/
theorem testBit_flagSum {pos : FlagPositions} (hd : [pos.s, pos.c, pos.z, pos.v].Nodup) (f : Flags) (q : Nat) :
    (flagSum pos f).testBit q =
      ((f.s && decide (pos.s.val = q)) || (f.c && decide (pos.c.val = q)) ||
        (f.z && decide (pos.z.val = q)) || (f.v && decide (pos.v.val = q))) := by
  obtain ⟨⟨hsc, hsz, hsv⟩, ⟨hcz, hcv⟩, hzv⟩ := flagPositions_ne hd
  have hs (q) : (f.s.toNat * 2 ^ pos.s.val).testBit q = (f.s && decide (pos.s.val = q)) := by
    simpa using testBit_add_flag (n := 0) (p := pos.s.val) (Nat.zero_testBit _) f.s q
  have hc := testBit_add_flag (p := pos.c.val) (by rw [hs]; simp [hsc]) f.c
  have hz := testBit_add_flag (p := pos.z.val) (by rw [hc, hs]; simp [hsz, hcz]) f.z
  have hv := testBit_add_flag (p := pos.v.val) (by rw [hz, hc, hs]; simp [hsv, hcv, hzv]) f.v
  rw [flagSum, hv, hz, hc, hs]

/-- At distinct positions the sum fits four bits: no position is past the third. -/
theorem flagSum_lt {pos : FlagPositions} (hd : [pos.s, pos.c, pos.z, pos.v].Nodup) (f : Flags) :
    flagSum pos f < 2 ^ 4 := by
  refine Nat.lt_pow_two_of_testBit _ fun q hq => ?_
  have hne (p : Fin 4) : p.val ≠ q := (p.isLt.trans_le hq).ne
  simp [testBit_flagSum hd, hne]

/-- Settles O13: the sum fits four bits, and its bits are the flags. -/
theorem flagsPackIntoFourBits : Obligations.FlagsPackIntoFourBits := by
  intro s hd
  have hbit (p : Fin 4) : s.flagsNumber.getLsbD p.val = (flagSum s.params.fpos s.flags).testBit p.val := by
    rw [State.flagsNumber, packFlags_eq, BitVec.getLsbD_ofNat, decide_eq_true p.isLt, Bool.true_and]
  obtain ⟨⟨hsc, hsz, hsv⟩, ⟨hcz, hcv⟩, hzv⟩ := flagPositions_ne hd
  refine ⟨Nat.mod_eq_of_lt (flagSum_lt hd s.flags), ?_, ?_, ?_, ?_⟩ <;> rw [hbit, testBit_flagSum hd]
  · simp [hsc.symm, hsz.symm, hsv.symm]
  · simp [hsc, hcz.symm, hcv.symm]
  · simp [hsz, hcz, hzv.symm]
  · simp [hsv, hcv, hzv]

end Sys2Proof.Machine

namespace Sys2Proof.Machine

/-! What an instruction sees and changes of data memory (R36, R42). -/

/-- The one-line meaning of stm (R81). -/
theorem exec_stm (rA rB : Reg) (s : State) :
    exec (.stm rA rB) s = .next (s.memWrite (s.reg rA) (s.reg rB)).advance := rfl

/-- The one-line meaning of ldm (R82). -/
theorem exec_ldm (rA rB : Reg) (s : State) :
    exec (.ldm rA rB) s = .next (s.setReg rA (s.memRead (s.reg rB))).advance := rfl

/-- In canonical memory a stored byte is read back at its address (R33, R34). -/
theorem memWrite_memRead_same {s : State} (hs : s.mem.wf = true) (a v : Byte) :
    (s.memWrite a v).memRead a = v :=
  read_write_same hs a.toNat v

/-- A store leaves the byte at every other address alone (R34). -/
theorem memWrite_memRead_other {a x : Byte} (h : x ≠ a) (s : State) (v : Byte) :
    (s.memWrite a v).memRead x = s.memRead x :=
  read_write_other s.mem a.toNat x.toNat v (mt BitVec.eq_of_toNat_eq h)

/-- Only stm changes data memory (R36). -/
theorem InstrEffect.sameMem {i : Instr} {s t : State} (h : InstrEffect s i t) :
    (∃ rA rB, i = .stm rA rB) ∨ SameMem s t := by
  cases h with
  | stored rA rB a v => exact .inl ⟨rA, rB, rfl⟩
  | _ => exact .inr fun _ => rfl

/-! What an instruction other than ldm and stm cannot see: replacing the whole memory changes nothing else in
the next state. -/

/-- The state with another memory. -/
def State.withMem (s : State) (m : Memory) : State := { s with mem := m }

@[simp] theorem withMem_flags (s : State) (m : Memory) : (s.withMem m).flags = s.flags := rfl
@[simp] theorem withMem_inBuf (s : State) (m : Memory) : (s.withMem m).inBuf = s.inBuf := rfl
@[simp] theorem withMem_rcur (s : State) (m : Memory) : (s.withMem m).rcur = s.rcur := rfl
@[simp] theorem withMem_rbud (s : State) (m : Memory) : (s.withMem m).rbud = s.rbud := rfl
@[simp] theorem withMem_wbud (s : State) (m : Memory) : (s.withMem m).wbud = s.wbud := rfl
@[simp] theorem withMem_params (s : State) (m : Memory) : (s.withMem m).params = s.params := rfl

@[simp] theorem raiseFault_withMem (k : FaultKind) (s : State) (m : Memory) :
    raiseFault k (s.withMem m) = (raiseFault k s).withMem m := rfl

theorem sysWrite_withMem (s : State) (m : Memory) : sysWrite (s.withMem m) = (sysWrite s).withMem m := by
  by_cases hw : s.wbud = 0
  · simp [sysWrite, hw]
  · simp only [sysWrite, withMem_wbud, hw, if_false]; rfl

theorem sysRead_withMem (s : State) (m : Memory) : sysRead (s.withMem m) = (sysRead s).withMem m := by
  by_cases hr : s.rbud = 0
  · simp [sysRead, hr]
  · simp only [sysRead, withMem_rbud, withMem_inBuf, withMem_rcur, hr, if_false]
    cases s.inBuf[s.rcur]? <;> rfl

theorem branchIf_withMem (taken : Bool) (c : Byte) (s : State) (m : Memory) :
    branchIf taken c (s.withMem m) = (branchIf taken c s).withMem m := by
  cases taken <;> rfl

/-- sys dispatches on ra, which does not depend on memory, and no operation of the controller reads or writes
memory. -/
theorem execSys_withMem {s t : State} (m : Memory) (h : execSys s = .next t) :
    execSys (s.withMem m) = .next (t.withMem m) := by
  by_cases hw : s.reg .ra = s.params.sel.write
  · cases (execSys_write hw).symm.trans h
    rw [execSys_write (s := s.withMem m) hw, sysWrite_withMem]
  by_cases hr : s.reg .ra = s.params.sel.read
  · cases (execSys_read hw hr).symm.trans h
    rw [execSys_read (s := s.withMem m) hw hr, sysRead_withMem]
  by_cases he : s.reg .ra = s.params.sel.exit
  · cases (execSys_exit hw hr he).symm.trans h
    exact execSys_exit hw hr he
  · cases (execSys_unknown hw hr he).symm.trans h
    exact execSys_unknown hw hr he

/-- Under another memory an instruction that is neither ldm nor stm answers the same, with that memory
(R36). -/
theorem exec_withMem {i : Instr} {s t : State} (m : Memory) (hi : ∀ rA rB, i ≠ .ldm rA rB ∧ i ≠ .stm rA rB)
    (h : exec i s = .next t) : exec i (s.withMem m) = .next (t.withMem m) := by
  cases i with
  | ldm rA rB => exact absurd rfl (hi rA rB).1
  | stm rA rB => exact absurd rfl (hi rA rB).2
  | jne c => cases h; simp only [exec, execJne, withMem_flags, branchIf_withMem]
  | jlt c => cases h; simp only [exec, execJlt, withMem_flags, withMem_params, branchIf_withMem]
  | sys => exact execSys_withMem m h
  | _ => cases h; rfl

/-- Settles O40: stm is the one effect that stores, ldm and stm are the only arms that reach memory, and
stm's address and byte are registers' values. -/
theorem onlyStmWritesAndOnlyLdmReadsMemory : Obligations.OnlyStmWritesAndOnlyLdmReadsMemory := by
  refine ⟨fun i s t h hstm => ?_, fun i s t m h hi => exec_withMem m hi h, fun rA rB s t m h => ?_⟩
  · exact (exec_instrEffect h).sameMem.resolve_left fun ⟨rA, rB, hi⟩ => hstm rA rB hi
  · cases h; rfl

/-- Settles O16: stm changes no register, so ldm reads the address it would have read, where the store is seen
exactly if it went there. -/
theorem loadReturnsTheStoredByte : Obligations.LoadReturnsTheStoredByte := by
  intro rA rB rC rD s t u hs ht hu
  rw [exec_stm] at ht
  obtain rfl := next_inj ht
  rw [exec_ldm, advance_memRead, advance_reg, memWrite_reg] at hu
  obtain rfl := next_inj hu
  refine ⟨fun hsame => ?_, fun hother => ?_⟩
  · rw [hsame, memWrite_memRead_same hs, advance_reg, setReg_reg_same]
  · rw [memWrite_memRead_other hother]; rfl

/-! Fetch, decode and execute joined (R35, R112). -/

/-- Settles O26: the bytes at ip are the record fetched, and its instruction is the one executed. -/
theorem stepRunsTheDecodedInstruction : Obligations.StepRunsTheDecodedInstruction :=
  fun _ _ _ hr hat hd => step_exec hr (fetch_eq_some_iff.2 hat) hd

/-- The record of a word placed with withFetchWord stands at ip (R35, R47; entry 19). -/
theorem withFetchWord_atIp (s : State) (nbits w : Nat) :
    AtIp (s.withFetchWord nbits w) (recordOfTableWord nbits w) :=
  storeRecord_bytes s.imem s.ip (recordOfTableWord nbits w)

/-- Settles O27: the placed record stands at ip of a running core, so the step executes it. -/
theorem loadedWordIsExecuted : Obligations.LoadedWordIsExecuted :=
  fun s nbits w i hd => stepRunsTheDecodedInstruction _ _ i rfl (withFetchWord_atIp s nbits w) hd

/-- Settles O29: past the image the fetch fails, and raising its fault leaves everything else. -/
theorem fetchPastTheImageFaults : Obligations.FetchPastTheImageFaults :=
  fun s hr hip => ⟨_, step_fetchRange hr (fetch_eq_none.2 hip), raiseFault_raised .fetchRange s⟩

end Sys2Proof.Machine

namespace Sys2Proof

/-! The decoder in two halves: the opcode selects a mnemonic, and the mnemonic says how the operand bytes are
read (R56, R98). -/

/-- The second half of `decode`: what the operand bytes make of an instruction whose mnemonic is known. -/
def decodeOperands (p : Params) (r : Record) : Mnemonic → Except DecodeFault Instr
  | .add => decodeRR p r .add
  | .sub => decodeRR p r .sub
  | .imm => decodeRI p r .imm
  | .cmp => decodeRR p r .cmp
  | .stm => decodeRR p r .stm
  | .ldm => decodeRR p r .ldm
  | .jmp => decodeIX r .jmp
  | .jne => decodeIX r .jne
  | .jlt => decodeIX r .jlt
  | .and => decodeRR p r .and
  | .orr => decodeRR p r .orr
  | .xor => decodeRR p r .xor
  | .not => decodeRR p r .not
  | .sys => .ok .sys
  | .mov => .ok .mov

theorem decode_eq_decodeOperands {p : Params} {r : Record} {m : Mnemonic} (h : mnemonicOf p r.op = some m) :
    decode p r = decodeOperands p r m := by
  unfold decode
  rw [h]
  cases m <;> rfl

theorem decode_eq_badOpcode {p : Params} {r : Record} (h : mnemonicOf p r.op = none) :
    decode p r = .error .badOpcode := by
  unfold decode
  rw [h]

/-! The encoder undone. -/

@[simp] theorem encode_op (p : Params) (i : Instr) : (encode p i).op = p.opc.code i.mnemonic := by
  cases i <;> rfl

theorem decodeRR_encodeRR {p : Params} (hp : p.RegCodesDistinct) (m : Mnemonic) (rA rB : Reg)
    (mk : Reg → Reg → Instr) : decodeRR p (encodeRR p m rA rB) mk = .ok (mk rA rB) := by
  simp only [decodeRR, encodeRR, regOf_code hp]

theorem decodeOperands_encode {p : Params} (hp : p.RegCodesDistinct) (i : Instr) :
    decodeOperands p (encode p i) i.mnemonic = .ok i := by
  cases i with
  | imm rA lit => simp only [encode, Instr.mnemonic, decodeOperands, decodeRI, regOf_code hp]
  | jmp t => rfl
  | jne t => rfl
  | jlt t => rfl
  | sys => rfl
  | mov => rfl
  | _ => exact decodeRR_encodeRR hp _ _ _ _

theorem decode_encode {p : Params} (hp : p.Wf) (i : Instr) : decode p (encode p i) = .ok i := by
  obtain ⟨hreg, hopc, -⟩ := hp
  have hm : mnemonicOf p (encode p i).op = some i.mnemonic := by rw [encode_op, mnemonicOf_code hopc]
  rw [decode_eq_decodeOperands hm, decodeOperands_encode hreg]

/-- A table word has the record's three bytes in its 24 bits (entry 20). -/
theorem recordOfTableWord_tableWord (r : Record) : recordOfTableWord 24 r.tableWord = r := by
  obtain ⟨op, a, b⟩ := r
  simp only [recordOfTableWord, Record.tableWord, Record.mk.injEq]
  refine ⟨?_, ?_, ?_⟩ <;> apply BitVec.eq_of_toNat_eq <;> rw [BitVec.toNat_ofNat] <;> omega

theorem decodeTableWord_tableWord {r : Record} {i : Instr} (h : decode Params.default r = .ok i) :
    decodeTableWord 24 r.tableWord = some i := by
  simp only [decodeTableWord, recordOfTableWord_tableWord, h]

/-- Settles O1: the opcode selects the mnemonic again and each register code its register, since both tables
are injective; a table word is the record it numbers. -/
theorem decodeOfEncodeIsIdentity : Obligations.DecodeOfEncodeIsIdentity :=
  ⟨fun _ hp i => decode_encode hp i, fun i => decodeTableWord_tableWord (decode_encode default_wf i)⟩

/-! What a decoded record's operand bytes are. -/

/-- A record that decodes in the format of two registers carries their codes. -/
theorem decodeRR_carries_encodeRR {p : Params} {r : Record} {mk : Reg → Reg → Instr} {i : Instr} {m : Mnemonic}
    (h : decodeRR p r mk = .ok i) (henc : ∀ rA rB, encode p (mk rA rB) = encodeRR p m rA rB) :
    r.a = (encode p i).a ∧ r.b = (encode p i).b := by
  rcases decodeRR_cases p r mk with ⟨rA, rB, ha, hb, hok⟩ | ⟨_, herr⟩
  · cases hok.symm.trans h
    rw [henc]
    exact ⟨(code_of_regOf ha).symm, (code_of_regOf hb).symm⟩
  · cases herr.symm.trans h

theorem decodeRI_carries_encode {p : Params} {r : Record} {i : Instr} (h : decodeRI p r .imm = .ok i) :
    r.a = (encode p i).a ∧ r.b = (encode p i).b := by
  rcases decodeRI_cases p r .imm with ⟨rA, ha, hok⟩ | ⟨_, herr⟩
  · cases hok.symm.trans h
    exact ⟨(code_of_regOf ha).symm, rfl⟩
  · cases herr.symm.trans h

theorem decodeIX_carries_encodeIX {p : Params} {r : Record} {mk : Byte → Instr} {i : Instr} {m : Mnemonic}
    (h : decodeIX r mk = .ok i) (henc : ∀ t, encode p (mk t) = encodeIX p m t) : r.a = (encode p i).a := by
  cases h
  rw [henc]
  rfl

/-- An operand of another kind than REG and LIT carries nothing (R52, R94). -/
theorem free_operand {k : OperandKind} {c c' : Byte} (hk : k = .ign ∨ k = .undefined) :
    k = .reg ∨ k = .lit → c = c' := by
  rcases hk with rfl | rfl <;> simp

/-- Settles O2: the mnemonic is the one the opcode selects, and its operand format leaves free only the bytes
it ignores. -/
theorem decodedRecordCarriesItsEncoding : Obligations.DecodedRecordCarriesItsEncoding := by
  intro p r i h
  have hm := mnemonicOf_decoded h
  rw [decode_eq_decodeOperands hm] at h
  refine ⟨by rw [encode_op, code_of_mnemonicOf hm], ?_⟩
  cases i with
  | imm rA lit =>
    obtain ⟨ha, hb⟩ := decodeRI_carries_encode h
    exact ⟨fun _ => ha, fun _ => hb⟩
  | jmp t => exact ⟨fun _ => decodeIX_carries_encodeIX h fun _ => rfl, free_operand (.inl rfl)⟩
  | jne t => exact ⟨fun _ => decodeIX_carries_encodeIX h fun _ => rfl, free_operand (.inl rfl)⟩
  | jlt t => exact ⟨fun _ => decodeIX_carries_encodeIX h fun _ => rfl, free_operand (.inl rfl)⟩
  | sys => exact ⟨free_operand (.inl rfl), free_operand (.inl rfl)⟩
  | mov => exact ⟨free_operand (.inr rfl), free_operand (.inr rfl)⟩
  | _ =>
    obtain ⟨ha, hb⟩ := decodeRR_carries_encodeRR h fun _ _ => rfl
    exact ⟨fun _ => ha, fun _ => hb⟩

/-! Ignored operands. -/

/-- Only operand bytes that are not ignored are read (R52). -/
theorem decodeOperands_congr {p : Params} {m : Mnemonic} {r r' : Record} (ha : kindA m ≠ .ign → r.a = r'.a)
    (hb : kindB m ≠ .ign → r.b = r'.b) : decodeOperands p r m = decodeOperands p r' m := by
  cases m with
  | imm => simp only [decodeOperands, decodeRI, ha (by decide), hb (by decide)]
  | jmp => simp only [decodeOperands, decodeIX, ha (by decide)]
  | jne => simp only [decodeOperands, decodeIX, ha (by decide)]
  | jlt => simp only [decodeOperands, decodeIX, ha (by decide)]
  | sys => rfl
  | mov => rfl
  | _ => simp only [decodeOperands, decodeRR, ha (by decide), hb (by decide)]

/-- Settles O4: the operand half of the decoder reads no ignored byte, and it refuses only operands of kind
REG. -/
theorem ignoredOperandsDoNotMatter : Obligations.IgnoredOperandsDoNotMatter := by
  rintro p ⟨-, hopc, -⟩ m a b a' b' ha hb
  have hm : ∀ x y, mnemonicOf p (Record.mk (p.opc.code m) x y).op = some m := fun _ _ => mnemonicOf_code hopc m
  refine ⟨?_, fun hA hB => ?_⟩
  · rw [decode_eq_decodeOperands (hm a b), decode_eq_decodeOperands (hm a' b')]
    exact decodeOperands_congr ha hb
  · rcases decode_of_mnemonicOf (hm a b) with ⟨hok, -⟩ | ⟨-, ⟨hreg, -⟩ | ⟨hreg, -⟩⟩
    · exact hok
    · simp [hreg] at hA
    · simp [hreg] at hB

end Sys2Proof

namespace Sys2Proof.Machine

/-! Which records decode, and which fault refuses the others (R50, R54, R56). -/

/-- An operand byte fits its kind unless it has kind REG and is no register's code (R49, R55). -/
theorem operandWf_iff {p : Params} {k : OperandKind} {c : Byte} :
    operandWf p k c = true ↔ ¬ (k = .reg ∧ NoRegister p c) := by
  cases k with
  | reg => simp [operandWf, NoRegister, Option.isSome_iff_ne_none, regOf_eq_none]
  | _ => simp [operandWf]

theorem operandsWf_iff {p : Params} {m : Mnemonic} {r : Record} :
    operandWf p (kindA m) r.a = true ∧ operandWf p (kindB m) r.b = true ↔ ¬ BadOperand p m r := by
  rw [operandWf_iff, operandWf_iff, BadOperand, not_or]

theorem record_wf_iff {p : Params} {r : Record} :
    r.wf p = true ↔ ∃ m, mnemonicOf p r.op = some m ∧ ¬ BadOperand p m r := by
  unfold Record.wf
  cases h : mnemonicOf p r.op with
  | none => simp
  | some m => simp [operandsWf_iff]

/-- The three ways a record is decoded or refused: exactly one of them holds of each record (R98). -/
theorem decode_cases (p : Params) (r : Record) :
    (mnemonicOf p r.op = none ∧ decode p r = .error .badOpcode) ∨
      ∃ m, mnemonicOf p r.op = some m ∧
        ((BadOperand p m r ∧ decode p r = .error .badRegister) ∨ (¬ BadOperand p m r ∧ ∃ i, decode p r = .ok i)) := by
  cases h : mnemonicOf p r.op with
  | none => exact .inl ⟨rfl, decode_eq_badOpcode h⟩
  | some m =>
    refine .inr ⟨m, rfl, ?_⟩
    rcases decode_of_mnemonicOf h with ⟨hok, hfit⟩ | ⟨herr, hbad⟩
    · exact .inr ⟨operandsWf_iff.1 hfit, hok⟩
    · rw [regOf_eq_none, regOf_eq_none] at hbad
      exact .inl ⟨hbad, herr⟩

theorem decode_badOpcode_iff {p : Params} {r : Record} :
    decode p r = .error .badOpcode ↔ ∀ m, p.opc.code m ≠ r.op := by
  rw [← mnemonicOf_eq_none]
  rcases decode_cases p r with ⟨hm, hd⟩ | ⟨m, hm, ⟨-, hd⟩ | ⟨-, i, hd⟩⟩
  · simp [hm, hd]
  · simp [hm, hd]
  · simp [hm, hd]

theorem decode_badRegister_iff {p : Params} (hp : p.OpcodesDistinct) {r : Record} :
    decode p r = .error .badRegister ↔ ∃ m, p.opc.code m = r.op ∧ BadOperand p m r := by
  have hcode : ∀ m, p.opc.code m = r.op ↔ mnemonicOf p r.op = some m := fun m =>
    ⟨fun h => h ▸ mnemonicOf_code hp m, code_of_mnemonicOf⟩
  simp only [hcode]
  rcases decode_cases p r with ⟨hm, hd⟩ | ⟨m, hm, ⟨hbad, hd⟩ | ⟨hbad, i, hd⟩⟩
  · simp [hm, hd]
  · simp [hm, hd, hbad]
  · simp [hm, hd, hbad]

theorem decode_ok_iff {p : Params} {r : Record} : (∃ i, decode p r = .ok i) ↔ r.wf p = true := by
  rw [record_wf_iff]
  rcases decode_cases p r with ⟨hm, hd⟩ | ⟨m, hm, ⟨hbad, hd⟩ | ⟨hbad, i, hd⟩⟩
  · simp [hm, hd]
  · simp [hm, hd, hbad]
  · simp [hm, hd, hbad]

/-- Settles O3: the opcode is judged first, then the operands of kind REG, and nothing else is refused. -/
theorem decodeClassifiesEveryRecord : Obligations.DecodeClassifiesEveryRecord :=
  fun _ ⟨_, hopc, _⟩ _ => ⟨decode_badOpcode_iff, decode_badRegister_iff hopc, decode_ok_iff⟩

/-- Settles O5 by running the decoder on the ten words. -/
theorem specWordsDecode : Obligations.SpecWordsDecode := by
  unfold Obligations.SpecWordsDecode
  decide

/-- A running core whose record does not decode raises that fault, and changes nothing else (R56, R95). -/
theorem step_raises_decodeFault {s : State} {r : Record} {e : DecodeFault} (hr : s.hs = .running)
    (hat : AtIp s r) (hd : decode s.params r = .error e) :
    ∃ t, step s = .next t ∧ Raised (decodeFaultKind e) s t :=
  ⟨_, step_decodeError hr (fetch_eq_some_iff.2 hat) hd, raiseFault_raised _ s⟩

/-- Settles O30: the record at ip is refused by the decoder, and the step raises its fault. -/
theorem undecodableRecordFaults : Obligations.UndecodableRecordFaults := by
  intro s r hr hat
  refine ⟨fun hop => ?_, fun hopc m hm hbad => ?_⟩
  · exact step_raises_decodeFault hr hat (decode_badOpcode_iff.2 hop)
  · exact step_raises_decodeFault hr hat ((decode_badRegister_iff hopc).2 ⟨m, hm, hbad⟩)

/-! The assembler's answers (R59, R60, R64, R65). -/

/-- The records of a text are those pass 2 emits under the labels of pass 1. -/
theorem assembleRecords_eq_ok {p : Params} {lines : List Line} {es : List Emitted}
    (h : assembleRecords p lines = .ok es) :
    ∃ labels, pass1 1 0 [] lines = .ok labels ∧ pass2 p labels 1 lines = .ok es := by
  unfold assembleRecords at h
  split at h
  · cases h
  · exact ⟨_, ‹_›, h⟩

/-- Without a capacity the assembler answers the image of the records. -/
theorem assemble_none_eq_ok {p : Params} {lines : List Line} {image : List Byte}
    (h : assemble p none lines = .ok image) :
    ∃ es, assembleRecords p lines = .ok es ∧ image = imageOf es := by
  unfold assemble at h
  split at h
  · cases h
  · cases h
    exact ⟨_, ‹_›, rfl⟩

/-- Records that fit a capacity are padded with zero bytes (R65). -/
theorem assemble_some_of_fits {p : Params} {lines : List Line} {es : List Emitted} {k : Nat}
    (h : assembleRecords p lines = .ok es) (hk : es.length ≤ k) :
    assemble p (some k) lines = .ok (imageOf es ++ List.replicate (3 * (k - es.length)) 0x00) := by
  simp only [assemble, h, List.getElem?_eq_none hk]

/-- Records that do not fit it fail (R65; D26; entry 26). -/
theorem assemble_some_of_overflow {p : Params} {lines : List Line} {es : List Emitted} {k : Nat}
    (h : assembleRecords p lines = .ok es) (hk : k < es.length) :
    ∃ e, assemble p (some k) lines = .error e ∧ e.kind = .capacityError := by
  simp only [assemble, h, List.getElem?_eq_getElem hk]
  exact ⟨_, rfl, rfl⟩

theorem imageOf_eq_flatMap_records (es : List Emitted) :
    imageOf es = (es.map Emitted.record).flatMap Record.bytes := by
  rw [imageOf, List.flatMap_map]

/-- Settles O51: the image is that of the records pass 2 emits, one for each instruction line. -/
theorem assemblyEmitsOneRecordPerInstructionLine : Obligations.AssemblyEmitsOneRecordPerInstructionLine := by
  intro p lines image h
  obtain ⟨es, hes, rfl⟩ := assemble_none_eq_ok h
  obtain ⟨labels, hlabels, hpass2⟩ := assembleRecords_eq_ok hes
  obtain ⟨hlen, hrecords⟩ := pass2_records hpass2
  refine ⟨labels, es.map Emitted.record, hlabels, by rw [List.length_map, hlen], imageOf_eq_flatMap_records es,
    by rw [imageOf_length, hlen], fun j t ts hj => ?_⟩
  obtain ⟨e, he, hline⟩ := hrecords j t ts hj
  exact ⟨e.record, by rw [List.getElem?_map, he]; rfl, hline⟩

/-- Settles O52: the image is three bytes for each record, so it exceeds the capacity exactly when the records
do. -/
theorem paddingFillsTheCapacity : Obligations.PaddingFillsTheCapacity := by
  intro p lines image k h
  obtain ⟨es, hes, rfl⟩ := assemble_none_eq_ok h
  rw [imageOf_length]
  refine ⟨fun hfits => ⟨_, assemble_some_of_fits hes (by omega), ?_, fun _ => List.eq_of_mem_replicate⟩,
    fun hover => assemble_some_of_overflow hes (by omega)⟩
  rw [List.length_append, List.length_replicate, imageOf_length]
  omega

/-! The resolution of an operand token, one lemma for each place in its order (R61), and the range of a
resolved number (R62). -/

theorem operandByte_toNat (b : Byte) : operandByte b.toNat = .ok b := by
  have hb : (0 : Int) ≤ b.toNat ∧ (b.toNat : Int) ≤ 255 := by omega
  rw [operandByte, if_pos hb, Int.toNat_natCast, BitVec.ofNat_toNat, BitVec.setWidth_eq]

theorem operandByte_out_of_range {z : Int} (h : z < 0 ∨ 255 < z) : operandByte z = .error .operandRangeError :=
  if_neg (by omega)

section
variable {p : Params} {labels : Labels} {t : Token}

theorem resolveToken_register {r : Reg} (h : regNamed t = some r) :
    resolveToken p labels t = .ok (p.regCode.code r) := by
  simp only [resolveToken, h]

theorem resolveToken_selector {v : Byte} (hr : regNamed t = none) (h : (selectorNames p).lookup t = some v) :
    resolveToken p labels t = .ok v := by
  simp only [resolveToken, hr, h]

theorem resolveToken_label {n : Nat} (hr : regNamed t = none) (hs : (selectorNames p).lookup t = none)
    (h : labels.lookup t = some n) : resolveToken p labels t = operandByte n := by
  simp only [resolveToken, hr, hs, h]

theorem resolveToken_integer {z : Int} (hr : regNamed t = none) (hs : (selectorNames p).lookup t = none)
    (hl : labels.lookup t = none) (h : parseInteger t = some z) : resolveToken p labels t = operandByte z := by
  simp only [resolveToken, hr, hs, hl, h]

theorem resolveToken_invalid (hr : regNamed t = none) (hs : (selectorNames p).lookup t = none)
    (hl : labels.lookup t = none) (h : parseInteger t = none) :
    resolveToken p labels t = .error .invalidOperand := by
  simp only [resolveToken, hr, hs, hl, h]

end

/-- Settles O53: the places of the order in turn; a label's index and an integer both go through the range
check. -/
theorem operandTokensResolveInOrder : Obligations.OperandTokensResolveInOrder := by
  intro p labels t
  refine ⟨fun r => resolveToken_register, fun hr => ⟨fun v => resolveToken_selector hr, fun hs z hz => ?_,
    resolveToken_invalid hr⟩⟩
  have hres : resolveToken p labels t = operandByte z := by
    rcases hz with hlabel | ⟨hnone, hint⟩
    · obtain ⟨n, hn, rfl⟩ := Option.map_eq_some_iff.1 hlabel
      exact resolveToken_label hr hs hn
    · exact resolveToken_integer hr hs hnone hint
  rw [hres]
  refine ⟨fun b hb => ?_, operandByte_out_of_range⟩
  rw [← hb, operandByte_toNat]

end Sys2Proof.Machine

namespace Sys2Proof.Machine

/-! The encodings of the formats RR and RI: a record of register codes is what the encoder writes, and any other
operand of kind REG is refused. -/

/-- A mnemonic with two operands of kind REG, whose instructions are encoded as two register codes, has the
encoding of format RR (R49, R50, R56). -/
theorem encodesRR_of_encodeRR {m : Mnemonic} {mk : Reg → Reg → Instr}
    (henc : ∀ p rA rB, encode p (mk rA rB) = encodeRR p m rA rB) (hA : kindA m = .reg) (hB : kindB m = .reg) :
    EncodesRR m mk := by
  intro p hp a b
  have ⟨_, hopc, _⟩ := hp
  refine ⟨?_, fun hbad => ?_⟩
  · rintro rA rB rfl rfl
    exact (congrArg (decode p) (henc p rA rB)).symm.trans (decode_encode hp (mk rA rB))
  · exact (decode_badRegister_iff hopc).2 ⟨m, rfl, hbad.imp (⟨hA, ·⟩) (⟨hB, ·⟩)⟩

/-- imm reads its operand B as it stands, so only operand A can be refused (R71). -/
theorem encodesRI_imm : EncodesRI .imm .imm := by
  intro p hp a b
  have ⟨_, hopc, _⟩ := hp
  refine ⟨?_, fun hbad => ?_⟩
  · rintro rA rfl
    exact decode_encode hp (.imm rA b)
  · exact (decode_badRegister_iff hopc).2 ⟨.imm, rfl, .inl ⟨rfl, hbad⟩⟩

/-! How the instructions that write one register end (R68). -/

/-- Writing a register and advancing ip leaves everything else. -/
theorem setReg_advance_wroteReg (s : State) (r : Reg) (v : Byte) : WroteReg r s (s.setReg r v).advance :=
  ⟨fun q hq => setReg_reg_other s r q v hq, rfl, fun _ => rfl, ⟨rfl, rfl, rfl, rfl⟩, ⟨rfl, rfl, rfl⟩, rfl⟩

/-- An instruction that ends by writing a value to a register answers a next state with that value there and ip
advanced (R68). -/
theorem exec_of_writeResult {i : Instr} {s : State} {r : Reg} {v : Byte} (hi : exec i s = writeResult s r v) :
    ∃ t, exec i s = .next t ∧ t.reg r = v ∧ t.ip = s.ip + 1 ∧ WroteReg r s t :=
  ⟨(s.setReg r v).advance, hi, setReg_reg_same s r v, rfl, setReg_advance_wroteReg s r v⟩

/-! The value each instruction of the family writes (R69-R75). -/

theorem exec_add (rA rB : Reg) (s : State) :
    exec (.add rA rB) s = writeResult s rA (aluAdd (s.reg rA) (s.reg rB)) := rfl

theorem exec_sub (rA rB : Reg) (s : State) :
    exec (.sub rA rB) s = writeResult s rA (aluSub (s.reg rA) (s.reg rB)) := rfl

theorem exec_imm (rA : Reg) (lit : Byte) (s : State) : exec (.imm rA lit) s = writeResult s rA lit := rfl

theorem exec_not (rA rB : Reg) (s : State) :
    exec (.not rA rB) s = writeResult s rA (aluNot (s.reg rB)) := rfl

theorem exec_and (rA rB : Reg) (s : State) :
    exec (.and rA rB) s = writeResult s rA (s.reg rA &&& s.reg rB) := rfl

theorem exec_orr (rA rB : Reg) (s : State) :
    exec (.orr rA rB) s = writeResult s rA (s.reg rA ||| s.reg rB) := rfl

theorem exec_xor (rA rB : Reg) (s : State) :
    exec (.xor rA rB) s = writeResult s rA (s.reg rA ^^^ s.reg rB) := rfl

/-! The arithmetic of the family as numbers: reducing modulo 256 fits a byte, so the byte is the number. -/

@[simp] theorem aluAdd_toNat (a b : Byte) : (aluAdd a b).toNat = (a.toNat + b.toNat) % 256 :=
  (BitVec.toNat_ofNat _ 8).trans (Nat.mod_mod _ 256)

@[simp] theorem aluSub_toNat (a b : Byte) : (aluSub a b).toNat = (a.toNat + (256 - b.toNat)) % 256 :=
  (BitVec.toNat_ofNat _ 8).trans (Nat.mod_mod _ 256)

@[simp] theorem aluNot_toNat (b : Byte) : (aluNot b).toNat = (256 - b.toNat) % 256 :=
  (BitVec.toNat_ofNat _ 8).trans (Nat.mod_mod _ 256)

/-- Adding the additive inverse is the subtraction of bytes (R70). -/
theorem aluSub_eq_sub (a b : Byte) : aluSub a b = a - b := by
  apply BitVec.eq_of_toNat_eq
  rw [aluSub_toNat, BitVec.toNat_sub, Nat.add_comm]

/-- Settles O6: add writes the sum of the two old values. -/
theorem addAddsModulo256 : Obligations.AddAddsModulo256 := by
  refine ⟨encodesRR_of_encodeRR (fun _ _ _ => rfl) rfl rfl, fun rA rB s => ?_⟩
  obtain ⟨t, ht, hv, hip, hframe⟩ := exec_of_writeResult (exec_add rA rB s)
  exact ⟨t, ht, by rw [hv, aluAdd_toNat], hip, hframe⟩

/-- Settles O7: sub writes the sum with the additive inverse, which is the difference. -/
theorem subSubtractsModulo256 : Obligations.SubSubtractsModulo256 := by
  refine ⟨encodesRR_of_encodeRR (fun _ _ _ => rfl) rfl rfl, fun rA rB s => ?_⟩
  obtain ⟨t, ht, hv, hip, hframe⟩ := exec_of_writeResult (exec_sub rA rB s)
  exact ⟨t, ht, by rw [hv, aluSub_toNat], by rw [hv, aluSub_eq_sub], hip, hframe⟩

/-- Settles O8: imm writes its literal byte, which the decoder does not check. -/
theorem immLoadsLiteral : Obligations.ImmLoadsLiteral :=
  ⟨encodesRI_imm, fun rA lit s => exec_of_writeResult (exec_imm rA lit s)⟩

/-- Settles O9: not writes the additive inverse. -/
theorem notNegatesModulo256 : Obligations.NotNegatesModulo256 := by
  refine ⟨encodesRR_of_encodeRR (fun _ _ _ => rfl) rfl rfl, fun rA rB s => ?_⟩
  obtain ⟨t, ht, hv, hip, hframe⟩ := exec_of_writeResult (exec_not rA rB s)
  exact ⟨t, ht, by rw [hv, aluNot_toNat], hip, hframe⟩

/-- An instruction that ends by writing a byte writes each of that byte's bits. -/
theorem exec_writes_bits {i : Instr} {s : State} {r : Reg} {v : Byte} {bit : Nat → Bool}
    (hi : exec i s = writeResult s r v) (hbit : ∀ n, v.getLsbD n = bit n) :
    ∃ t, exec i s = .next t ∧ t.ip = s.ip + 1 ∧ WroteReg r s t ∧ ∀ n, n < 8 → (t.reg r).getLsbD n = bit n := by
  obtain ⟨t, ht, hv, hip, hframe⟩ := exec_of_writeResult hi
  exact ⟨t, ht, hip, hframe, fun n _ => by rw [hv, hbit]⟩

/-- Settles O10: the bits of a bitwise operation on bytes are the operation on their bits. -/
theorem bitwiseOperationsActBitByBit : Obligations.BitwiseOperationsActBitByBit :=
  ⟨encodesRR_of_encodeRR (fun _ _ _ => rfl) rfl rfl, encodesRR_of_encodeRR (fun _ _ _ => rfl) rfl rfl,
    encodesRR_of_encodeRR (fun _ _ _ => rfl) rfl rfl, fun rA rB s =>
    ⟨exec_writes_bits (exec_and rA rB s) fun _ => BitVec.getLsbD_and,
      exec_writes_bits (exec_orr rA rB s) fun _ => BitVec.getLsbD_or,
      exec_writes_bits (exec_xor rA rB s) fun _ => BitVec.getLsbD_xor⟩⟩

end Sys2Proof.Machine

namespace Sys2Proof.Machine

/-! What cmp does: it replaces F by the flags of its two register values, and advances ip (R78). -/

theorem exec_cmp (rA rB : Reg) (s : State) :
    exec (.cmp rA rB) s = .next (s.setFlags (cmpFlags (s.reg rA) (s.reg rB))).advance := rfl

/-- Replacing the flags and advancing ip leaves everything else. -/
theorem setFlags_advance_wroteFlags (s : State) (f : Flags) : WroteFlags s (s.setFlags f).advance :=
  ⟨fun _ => rfl, fun _ => rfl, ⟨rfl, rfl, rfl, rfl⟩, ⟨rfl, rfl, rfl⟩, rfl⟩

/-- The overflow flag is set when the operands' signs agree and the result's differs from them (R76). -/
theorem cmpFlags_v_eq_true_iff (a b : Byte) :
    (cmpFlags a b).v = true ↔ a.toNat.testBit 7 = b.toNat.testBit 7 ∧
      ((a.toNat + (256 - b.toNat)) % 256).testBit 7 ≠ a.toNat.testBit 7 := by
  simp only [cmpFlags, Bool.and_eq_true, beq_iff_eq, bne_iff_ne]

/-- Settles O11: the flags cmp writes are by definition those of the formula. -/
theorem cmpComputesTheSourceFormula : Obligations.CmpComputesTheSourceFormula := by
  refine ⟨encodesRR_of_encodeRR (fun _ _ _ => rfl) rfl rfl, fun rA rB s =>
    ⟨_, exec_cmp rA rB s, rfl, setFlags_advance_wroteFlags s _, ?_⟩⟩
  rintro r lo rfl rfl
  exact ⟨rfl, rfl, beq_iff_eq, cmpFlags_v_eq_true_iff (s.reg rA) (s.reg rB)⟩

/-! The flags as facts about the operands (R79). The low byte of the formula's sum is the difference of the
operands, so S and Z speak of `a - b`; the signs are comparisons with 128. -/

/-- The low byte of the formula's sum is the difference of the operands. -/
theorem cmp_lowByte_eq_sub (a b : Byte) : (a.toNat + (256 - b.toNat)) % 256 = (a - b).toNat := by
  rw [← aluSub_eq_sub, aluSub_toNat]

theorem cmpFlags_s (a b : Byte) : (cmpFlags a b).s = (a - b).getLsbD 7 :=
  congrArg (Nat.testBit · 7) (cmp_lowByte_eq_sub a b)

theorem cmpFlags_z_eq_true_iff (a b : Byte) : (cmpFlags a b).z = true ↔ a = b := by
  have hz : (cmpFlags a b).z = ((a - b).toNat == 0) := congrArg (· == 0) (cmp_lowByte_eq_sub a b)
  rw [hz, beq_iff_eq, ← sub_eq_zero (a := a)]
  exact BitVec.toNat_inj (y := 0)

/-- Bit 8 of the formula's sum, which has 9 bits, is set exactly when nothing is borrowed. -/
theorem cmpFlags_c_eq_true_iff (a b : Byte) : (cmpFlags a b).c = true ↔ b.toNat ≤ a.toNat := by
  have hc : (cmpFlags a b).c = decide ((a.toNat + (256 - b.toNat)) / 2 ^ 8 % 2 = 1) :=
    Nat.testBit_eq_decide_div_mod_eq
  rw [hc, decide_eq_true_iff]
  omega

/-- The sign of a byte: its bit 7 says whether it is from 128 up. -/
theorem getLsbD_seven_eq (a : Byte) : a.getLsbD 7 = decide (128 ≤ a.toNat) :=
  a.msb_eq_getLsbD_last.symm.trans a.msb_eq_decide

theorem cmpFlags_v (a b : Byte) :
    (cmpFlags a b).v = ((a.getLsbD 7 == b.getLsbD 7) && ((a - b).getLsbD 7 != a.getLsbD 7)) := by
  rw [← cmpFlags_s]
  rfl

/-- Between operands of the same sign, the sign of the difference is the borrow. -/
theorem sub_getLsbD_seven {a b : Byte} (h : 128 ≤ a.toNat ↔ 128 ≤ b.toNat) :
    (a - b).getLsbD 7 = decide (a.toNat < b.toNat) := by
  rw [getLsbD_seven_eq, BitVec.toNat_sub, decide_eq_decide]
  omega

/-- Between operands of the same sign, V says that the sign and the borrow differ. -/
theorem cmpFlags_v_of_sameSign {a b : Byte} (h : 128 ≤ a.toNat ↔ 128 ≤ b.toNat) :
    (cmpFlags a b).v = (decide (a.toNat < b.toNat) != decide (128 ≤ a.toNat)) := by
  rw [cmpFlags_v, sub_getLsbD_seven h, getLsbD_seven_eq a, getLsbD_seven_eq b, decide_eq_decide.2 h,
    BEq.rfl, Bool.true_and]

theorem cmpFlags_v_of_differentSign {a b : Byte} (h : a.getLsbD 7 ≠ b.getLsbD 7) : (cmpFlags a b).v = false := by
  rw [cmpFlags_v, beq_false_of_ne h, Bool.false_and]

/-- Settles O12: each flag in turn; for V the three cases of the operands' signs. -/
theorem compareFlagsRelateToOperands : Obligations.CompareFlagsRelateToOperands := by
  intro rA rB s t h
  cases next_inj ((exec_cmp rA rB s).symm.trans h)
  refine ⟨cmpFlags_z_eq_true_iff _ _, cmpFlags_c_eq_true_iff _ _, cmpFlags_s _ _, fun ha hb => ?_,
    fun ha hb => ?_, cmpFlags_v_of_differentSign⟩
  · rw [advance_flags, setFlags_flags, cmpFlags_v_of_sameSign (by omega), decide_eq_false (Nat.not_le.2 ha),
      Bool.bne_false, decide_eq_true_iff]
  · rw [advance_flags, setFlags_flags, cmpFlags_v_of_sameSign (iff_of_true ha hb), decide_eq_true ha,
      Bool.bne_true, ← decide_not, decide_eq_true_iff, Nat.not_lt]

end Sys2Proof.Machine

namespace Sys2Proof.Machine

/-! What stm and ldm do (R81, R82): stm changes the one byte at its address, ldm ends like the other instructions
that write one register. -/

/-- Storing a byte and advancing ip leaves everything else. -/
theorem memWrite_advance_wroteByte (s : State) (a v : Byte) : WroteByte a s (s.memWrite a v).advance :=
  ⟨fun _ => rfl, rfl, fun _ hx => memWrite_memRead_other hx s v, ⟨rfl, rfl, rfl, rfl⟩, ⟨rfl, rfl, rfl⟩, rfl⟩

/-- Settles O14: stm is one store, at the value of its register A, and a store to canonical memory is read
back. -/
theorem stmStoresOneByte : Obligations.StmStoresOneByte :=
  ⟨encodesRR_of_encodeRR (fun _ _ _ => rfl) rfl rfl, fun rA rB s =>
    ⟨_, exec_stm rA rB s, rfl, memWrite_advance_wroteByte s (s.reg rA) (s.reg rB), rfl,
      fun hs => memWrite_memRead_same hs (s.reg rA) (s.reg rB)⟩⟩

/-- Settles O15: ldm writes the byte it read before the write. -/
theorem ldmLoadsOneByte : Obligations.LdmLoadsOneByte := by
  refine ⟨encodesRR_of_encodeRR (fun _ _ _ => rfl) rfl rfl, fun rA rB s => ?_⟩
  obtain ⟨t, ht, hv, hip, hframe⟩ := exec_of_writeResult (exec_ldm rA rB s)
  exact ⟨t, ht, hip, hframe, hv⟩

end Sys2Proof.Machine

namespace Sys2Proof.Machine

/-! The encoding of a literal target and an ignored byte. -/

/-- A mnemonic whose operand B is ignored, and whose instructions are encoded as their target, has the encoding
of format IX: whatever byte B is, the record decodes as the encoder's own does (R52, R83). -/
theorem encodesIX_of_encodeIX {m : Mnemonic} {mk : Byte → Instr}
    (henc : ∀ p t, encode p (mk t) = encodeIX p m t) (hB : kindB m = .ign) : EncodesIX m mk := by
  intro p hp t any
  obtain ⟨hany, -⟩ := ignoredOperandsDoNotMatter p hp m t any t ignoredByte (fun _ => rfl) (absurd hB)
  calc decode p ⟨p.opc.code m, t, any⟩
    _ = decode p (encodeIX p m t) := hany
    _ = decode p (encode p (mk t)) := by rw [henc]
    _ = .ok (mk t) := decode_encode hp (mk t)

/-! What the branch unit does to ip, and that it changes nothing else (R83). -/

theorem exec_jmp (t : Byte) (s : State) : exec (.jmp t) s = .next (s.jumpTo t.toNat) := rfl

theorem exec_jne (t : Byte) (s : State) : exec (.jne t) s = .next (branchIf s.flags.z t s) := rfl

theorem exec_jlt (t : Byte) (s : State) :
    exec (.jlt t) s = .next (branchIf (jltTaken s.params s.flags) t s) := rfl

/-- A conditional branch goes to its target or to the next record (R85, R86). -/
@[simp] theorem branchIf_ip (taken : Bool) (t : Byte) (s : State) :
    (branchIf taken t s).ip = if taken = true then t.toNat else s.ip + 1 := by
  cases taken <;> rfl

theorem jumpTo_wroteIp (s : State) (n : Nat) : WroteIp s (s.jumpTo n) :=
  ⟨fun _ => rfl, rfl, fun _ => rfl, ⟨rfl, rfl, rfl, rfl⟩, ⟨rfl, rfl, rfl⟩, rfl⟩

/-- Taken or not, a conditional branch is a jump to the ip it ends at. -/
theorem branchIf_eq_jumpTo (taken : Bool) (t : Byte) (s : State) :
    branchIf taken t s = s.jumpTo (branchIf taken t s).ip := by
  cases taken <;> rfl

theorem branchIf_wroteIp (taken : Bool) (t : Byte) (s : State) : WroteIp s (branchIf taken t s) := by
  rw [branchIf_eq_jumpTo]
  exact jumpTo_wroteIp s _

/-- Settles O19: ip follows the table's answer at the flags, which under the default table is S. -/
theorem jltBranchesOnItsCondition : Obligations.JltBranchesOnItsCondition := by
  refine ⟨encodesIX_of_encodeIX (fun _ _ => rfl) rfl, fun target s =>
    ⟨_, exec_jlt target s, branchIf_wroteIp _ target s, branchIf_ip _ target s, fun hdefault => ?_⟩⟩
  rw [branchIf_ip, jltTaken_default hdefault]

/-- Settles O17: jmp is a jump to its literal target. -/
theorem jmpSetsIp : Obligations.JmpSetsIp :=
  ⟨encodesIX_of_encodeIX (fun _ _ => rfl) rfl, fun target s =>
    ⟨_, exec_jmp target s, rfl, jumpTo_wroteIp s target.toNat⟩⟩

/-- Settles O18: jne is the conditional branch on the zero flag. -/
theorem jneBranchesOnZero : Obligations.JneBranchesOnZero :=
  ⟨encodesIX_of_encodeIX (fun _ _ => rfl) rfl, fun target s =>
    ⟨_, exec_jne target s, branchIf_ip _ target s, branchIf_wroteIp _ target s⟩⟩

end Sys2Proof.Machine

namespace Sys2Proof.Machine

/-! The selectors and the encoding of sys (R87, R89). -/

/-- A mnemonic whose operand bytes the decoder never reads decodes to its one instruction whatever they are. -/
theorem encodesXX_of_decodeOperands {m : Mnemonic} {i : Instr} (h : ∀ p r, decodeOperands p r m = .ok i) :
    EncodesXX m i := by
  rintro p ⟨-, hopc, -⟩ any any'
  have hm : mnemonicOf p (Record.mk (p.opc.code m) any any').op = some m := mnemonicOf_code hopc m
  rw [decode_eq_decodeOperands hm, h]

/-- Distinct selectors, as the inequalities the order of the dispatch asks for. -/
theorem selectors_ne {p : Params} (hd : p.SelectorsDistinct) :
    p.sel.read ≠ p.sel.write ∧ p.sel.exit ≠ p.sel.write ∧ p.sel.exit ≠ p.sel.read := by
  simp only [Params.SelectorsDistinct, Selectors.toList, List.nodup_cons, List.mem_cons, List.not_mem_nil,
    or_false, not_or] at hd
  obtain ⟨⟨hwr, hwe⟩, hre, -⟩ := hd
  exact ⟨Ne.symm hwr, Ne.symm hwe, Ne.symm hre⟩

theorem not_mem_selectors_iff {sel : Selectors} {x : Byte} :
    x ∉ sel.toList ↔ x ≠ sel.write ∧ x ≠ sel.read ∧ x ≠ sel.exit := by
  simp only [Selectors.toList, List.mem_cons, List.not_mem_nil, or_false, not_or]

theorem sentinelOf_mem (e : Sentinels) (k : FaultKind) : sentinelOf e k ∈ e.toList := by
  cases k <;> simp [sentinelOf, Sentinels.toList]

/-! Which operation exec of sys runs, for distinct selectors (R88). -/

theorem exec_sys_write {s : State} (hw : s.reg .ra = s.params.sel.write) : exec .sys s = .next (sysWrite s) :=
  execSys_write hw

theorem exec_sys_read {s : State} (hd : s.params.SelectorsDistinct) (hr : s.reg .ra = s.params.sel.read) :
    exec .sys s = .next (sysRead s) := by
  obtain ⟨hrw, -, -⟩ := selectors_ne hd
  exact execSys_read (hr ▸ hrw) hr

theorem exec_sys_exit {s : State} (hd : s.params.SelectorsDistinct) (he : s.reg .ra = s.params.sel.exit) :
    exec .sys s = .next (haltExit s) := by
  obtain ⟨-, hew, her⟩ := selectors_ne hd
  exact execSys_exit (he ▸ hew) (he ▸ her) he

theorem exec_sys_unknown {s : State} (h : s.reg .ra ∉ s.params.sel.toList) :
    exec .sys s = .next (raiseFault .badSyscall s) := by
  obtain ⟨hw, hr, he⟩ := not_mem_selectors_iff.1 h
  exact execSys_unknown hw hr he

/-! What the operations do, branch by branch (R90, R91). -/

theorem sysWrite_of_budget {s : State} (h : s.wbud ≠ 0) : sysWrite s = (s.emit (s.reg .rb)).advance :=
  if_neg h

theorem sysWrite_exhausted {s : State} (h : s.wbud = 0) : sysWrite s = raiseFault .writeExhausted s :=
  if_pos h

theorem sysRead_of_input {s : State} {v : Byte} (h : s.rbud ≠ 0) (hv : s.inBuf[s.rcur]? = some v) :
    sysRead s = (s.setReg .ra v).consumeInput.advance := by
  simp only [sysRead, if_neg h, hv]

theorem sysRead_exhausted {s : State} (h : s.rbud = 0 ∨ s.inBuf.length ≤ s.rcur) :
    sysRead s = raiseFault .readExhausted s := by
  by_cases hb : s.rbud = 0
  · exact if_pos hb
  · have hnone : s.inBuf[s.rcur]? = none := List.getElem?_eq_none (h.resolve_left hb)
    simp only [sysRead, if_neg hb, hnone]

/-- An instruction that ends by raising a fault answers the state that fault leaves (R95). -/
theorem exec_of_raiseFault {i : Instr} {s : State} {k : FaultKind} (hi : exec i s = .next (raiseFault k s)) :
    ∃ t, exec i s = .next t ∧ Raised k s t :=
  ⟨_, hi, raiseFault_raised k s⟩

/-- Settles O21: the two branches of SysWrite; one unit taken from a budget that is not 0 leaves it one less. -/
theorem sysWriteEmitsOrFaults : Obligations.SysWriteEmitsOrFaults := by
  refine fun s hsel => ⟨fun hbud => ?_, fun hbud => ?_⟩
  · have hexec := exec_sys_write hsel
    rw [sysWrite_of_budget hbud] at hexec
    exact ⟨_, hexec, rfl, Nat.sub_one_add_one hbud, rfl, fun _ => rfl, rfl, fun _ => rfl, rfl, rfl,
      ⟨rfl, rfl, rfl⟩, rfl⟩
  · apply exec_of_raiseFault
    rw [exec_sys_write hsel, sysWrite_exhausted hbud]

/-- Settles O22: SysRead's success writes one register, and either reason to fail raises the same fault. -/
theorem sysReadTakesInputOrFaults : Obligations.SysReadTakesInputOrFaults := by
  refine fun s hd hsel => ⟨fun v hbud hv => ?_, fun hused => ?_⟩
  · have hexec := exec_sys_read hd hsel
    rw [sysRead_of_input hbud hv] at hexec
    exact ⟨_, hexec, rfl, rfl, Nat.sub_one_add_one hbud, rfl, fun q hq => setReg_reg_other s .ra q v hq, rfl,
      fun _ => rfl, rfl, rfl, ⟨rfl, rfl, rfl⟩, rfl⟩
  · apply exec_of_raiseFault
    rw [exec_sys_read hd hsel, sysRead_exhausted hused]

/-- Settles O20: the decoder reads no operand byte of sys, and distinct selectors make the order of
its tests immaterial. -/
theorem sysDispatchesOnFirstRegister : Obligations.SysDispatchesOnFirstRegister :=
  ⟨encodesXX_of_decodeOperands fun _ _ => rfl,
    fun _ hd => ⟨exec_sys_write, exec_sys_read hd, exec_sys_exit hd, exec_sys_unknown⟩⟩

/-- Settles O23: exit is one write of HS. -/
theorem sysExitHaltsAndChangesNothingElse : Obligations.SysExitHaltsAndChangesNothingElse := fun s hd hsel =>
  ⟨haltExit s, exec_sys_exit hd hsel, rfl, rfl, fun _ => rfl, rfl, fun _ => rfl, ⟨rfl, rfl, rfl, rfl⟩,
    ⟨rfl, rfl, rfl⟩⟩

/-- Settles O24: a sentinel in ra is no selector, so the first clause applies to it. -/
theorem sysUnknownSelectorFaults : Obligations.SysUnknownSelectorFaults := by
  intro s
  have hunknown (h : s.reg .ra ∉ s.params.sel.toList) : ∃ t, exec .sys s = .next t ∧ Raised .badSyscall s t :=
    exec_of_raiseFault (exec_sys_unknown h)
  refine ⟨hunknown, fun hns k hk => hunknown fun hmem => hns _ hmem ?_⟩
  rw [hk]
  exact sentinelOf_mem s.params.err k

end Sys2Proof.Machine

namespace Sys2Proof.Machine

/-! The reserved instruction (R94, R95). -/

/-- The meaning decision D9 gives mov: it looks at no operand and raises the fault of an illegal opcode. -/
theorem exec_mov (s : State) : exec .mov s = .next (raiseFault .badOpcode s) := rfl

/-- Settles O25: the decoder reads no operand byte of mov, and its meaning is one raised fault. -/
theorem movRaisesBadOpcode : Obligations.MovRaisesBadOpcode :=
  ⟨encodesXX_of_decodeOperands fun _ _ => rfl, fun s => exec_of_raiseFault (exec_mov s)⟩

end Sys2Proof.Machine

namespace Sys2Proof.Machine

/-! Totality and precision of a step's faults (R95, R97, R99, R112). -/

/-- Settles O33: every step answers a next state, and the host's boolean is its HS ≠ RUNNING. -/
theorem everyStepAnswersANextState : Obligations.EveryStepAnswersANextState := by
  intro s
  obtain ⟨t, ht, -⟩ := step_effect s
  exact ⟨t, ht, hostStep_eq ht⟩

/-- The one effect that faults a running core is a raised fault. -/
theorem Effect.eq_raiseFault {s t : State} (h : Effect s t) (hr : s.hs = .running) {k : FaultKind}
    (hk : t.hs = .fault k) : t = raiseFault k s := by
  cases h with
  | raised j => cases hk; rfl
  | exited => cases hk
  | _ => nomatch hr.symm.trans hk

/-- Settles O32: the step's effect was a raised fault, which leaves everything but ra and HS. -/
theorem faultsArePrecise : Obligations.FaultsArePrecise := by
  intro s t k hr h hk
  rcases step_next h with ⟨hhalted, -⟩ | ⟨-, he⟩
  · exact absurd hr hhalted
  · rw [he.eq_raiseFault hr hk]
    exact raiseFault_raised k s

/-! The cause of each halt (R96, R98): a step that halts had the cause of the status it ends in, and a cause
fixes the status. -/

/-- Why a step of a running core ends in a halt status: the cause of a fault, or sys at ip with the exit
selector in ra (R92, R96). Running on asks for no cause. -/
def HaltCause (s : State) : HaltStatus → Prop
  | .running => True
  | .exited => ∃ r, AtIp s r ∧ s.params.opc.code .sys = r.op ∧ s.reg .ra = s.params.sel.exit
  | .fault k => FaultCause s k

/-- A running core executes an instruction whose operand bytes are ignored when the record at ip has its
opcode (R52, R112). -/
theorem step_of_encodesXX {m : Mnemonic} {i : Instr} (hi : EncodesXX m i) {s : State} {r : Record}
    (hr : s.hs = .running) (hp : s.params.Wf) (hat : AtIp s r) (hop : s.params.opc.code m = r.op) :
    step s = exec i s := by
  obtain ⟨op, a, b⟩ := r
  subst hop
  exact step_exec hr (fetch_eq_some_iff.2 hat) (hi s.params hp a b)

theorem step_sys {s : State} {r : Record} (hr : s.hs = .running) (hp : s.params.Wf) (hat : AtIp s r)
    (hop : s.params.opc.code .sys = r.op) : step s = exec .sys s :=
  step_of_encodesXX sysDispatchesOnFirstRegister.1 hr hp hat hop

/-- A fault's cause raises it (R96). -/
theorem step_of_faultCause {s : State} {k : FaultKind} (hr : s.hs = .running) (hp : s.params.Wf)
    (hc : FaultCause s k) : step s = .next (raiseFault k s) := by
  have ⟨_, hopc, hsel, _⟩ := hp
  cases k with
  | fetchRange => exact step_fetchRange hr (fetch_eq_none.2 hc)
  | badOpcode =>
    obtain ⟨r, hat, hop | hop⟩ := hc
    · exact step_decodeError hr (fetch_eq_some_iff.2 hat) (decode_badOpcode_iff.2 hop)
    · rw [step_of_encodesXX movRaisesBadOpcode.1 hr hp hat hop, exec_mov]
  | badRegister =>
    obtain ⟨r, m, hat, hop, hbad⟩ := hc
    exact step_decodeError hr (fetch_eq_some_iff.2 hat) ((decode_badRegister_iff hopc).2 ⟨m, hop, hbad⟩)
  | writeExhausted =>
    obtain ⟨r, hat, hop, hw, hbud⟩ := hc
    rw [step_sys hr hp hat hop, exec_sys_write hw, sysWrite_exhausted hbud]
  | readExhausted =>
    obtain ⟨r, hat, hop, hrd, hused⟩ := hc
    rw [step_sys hr hp hat hop, exec_sys_read hsel hrd, sysRead_exhausted hused]
  | badSyscall =>
    obtain ⟨r, hat, hop, hunknown⟩ := hc
    rw [step_sys hr hp hat hop, exec_sys_unknown hunknown]

/-- The cause of a halt makes the step end in it. -/
theorem step_hs_of_haltCause {s t : State} {st : HaltStatus} (hr : s.hs = .running) (hp : s.params.Wf)
    (h : step s = .next t) (hst : st ≠ .running) (hc : HaltCause s st) : t.hs = st := by
  cases st with
  | running => exact absurd rfl hst
  | exited =>
    have ⟨_, _, hsel, _⟩ := hp
    obtain ⟨r, hat, hop, he⟩ := hc
    rw [step_sys hr hp hat hop, exec_sys_exit hsel he] at h
    rw [← next_inj h, haltExit_hs]
  | fault k =>
    rw [step_of_faultCause hr hp hc] at h
    rw [← next_inj h, raiseFault_hs]

theorem haltCause_of_running {s t : State} (ht : t.hs = .running) : HaltCause s t.hs := by
  rw [ht]
  trivial

/-- SysWrite halts only with no budget left (R90). -/
theorem sysWrite_haltCause {s : State} {r : Record} (hr : s.hs = .running) (hat : AtIp s r)
    (hop : s.params.opc.code .sys = r.op) (hw : s.reg .ra = s.params.sel.write) :
    HaltCause s (sysWrite s).hs := by
  by_cases hbud : s.wbud = 0
  · rw [sysWrite_exhausted hbud]
    exact ⟨r, hat, hop, hw, hbud⟩
  · rw [sysWrite_of_budget hbud]
    exact haltCause_of_running hr

/-- SysRead halts only with no budget or no input left (R91). -/
theorem sysRead_haltCause {s : State} {r : Record} (hr : s.hs = .running) (hat : AtIp s r)
    (hop : s.params.opc.code .sys = r.op) (hrd : s.reg .ra = s.params.sel.read) :
    HaltCause s (sysRead s).hs := by
  by_cases hused : s.rbud = 0 ∨ s.inBuf.length ≤ s.rcur
  · rw [sysRead_exhausted hused]
    exact ⟨r, hat, hop, hrd, hused⟩
  · obtain ⟨hbud, hlen⟩ := not_or.1 hused
    rw [sysRead_of_input hbud (List.getElem?_eq_getElem (Nat.lt_of_not_le hlen))]
    exact haltCause_of_running hr

/-- Whatever sys does, a status it halts in had its cause (R89). -/
theorem exec_sys_haltCause {s t : State} {r : Record} (hr : s.hs = .running) (hat : AtIp s r)
    (hop : s.params.opc.code .sys = r.op) (h : exec .sys s = .next t) : HaltCause s t.hs := by
  by_cases hw : s.reg .ra = s.params.sel.write
  · obtain rfl := next_inj ((execSys_write hw).symm.trans h)
    exact sysWrite_haltCause hr hat hop hw
  by_cases hrd : s.reg .ra = s.params.sel.read
  · obtain rfl := next_inj ((execSys_read hw hrd).symm.trans h)
    exact sysRead_haltCause hr hat hop hrd
  by_cases he : s.reg .ra = s.params.sel.exit
  · obtain rfl := next_inj ((execSys_exit hw hrd he).symm.trans h)
    exact ⟨r, hat, hop, he⟩
  · obtain rfl := next_inj ((execSys_unknown hw hrd he).symm.trans h)
    exact ⟨r, hat, hop, not_mem_selectors_iff.2 ⟨hw, hrd, he⟩⟩

/-- Only sys and mov change HS (R92, R95). -/
theorem InstrEffect.hs {i : Instr} {s t : State} (h : InstrEffect s i t) :
    (i = .sys ∨ i = .mov) ∨ t.hs = s.hs := by
  cases h with
  | exited => exact .inl (.inl rfl)
  | raised hi k => exact .inl hi
  | _ => exact .inr rfl

/-- Whatever the decoded instruction does, a status it halts in had its cause. -/
theorem exec_haltCause {s t : State} {r : Record} {i : Instr} (hr : s.hs = .running) (hat : AtIp s r)
    (hd : decode s.params r = .ok i) (h : exec i s = .next t) : HaltCause s t.hs := by
  have hop : s.params.opc.code i.mnemonic = r.op := code_of_mnemonicOf (mnemonicOf_decoded hd)
  rcases (exec_instrEffect h).hs with (rfl | rfl) | hhs
  · exact exec_sys_haltCause hr hat hop h
  · obtain rfl := next_inj ((exec_mov s).symm.trans h)
    exact ⟨r, hat, .inr hop⟩
  · exact haltCause_of_running (hhs.trans hr)

/-- A record the decoder refuses is the cause of the fault it is refused with (R56). -/
theorem faultCause_of_decodeError {s : State} {r : Record} {e : DecodeFault} (hopc : s.params.OpcodesDistinct)
    (hat : AtIp s r) (hd : decode s.params r = .error e) : FaultCause s (decodeFaultKind e) := by
  cases e with
  | badOpcode => exact ⟨r, hat, .inl (decode_badOpcode_iff.1 hd)⟩
  | badRegister =>
    obtain ⟨m, hop, hbad⟩ := (decode_badRegister_iff hopc).1 hd
    exact ⟨r, m, hat, hop, hbad⟩

/-- A status a step ends in had its cause, in the order of fetch, decode and execution (R98). -/
theorem step_haltCause {s t : State} (hr : s.hs = .running) (hopc : s.params.OpcodesDistinct)
    (h : step s = .next t) : HaltCause s t.hs := by
  cases hf : fetch s s.ip with
  | none =>
    obtain rfl := next_inj ((step_fetchRange hr hf).symm.trans h)
    exact fetch_eq_none.1 hf
  | some r =>
    have hat := fetch_eq_some_iff.1 hf
    cases hd : decode s.params r with
    | error e =>
      obtain rfl := next_inj ((step_decodeError hr hf hd).symm.trans h)
      exact faultCause_of_decodeError hopc hat hd
    | ok i => exact exec_haltCause hr hat hd ((step_exec hr hf hd).symm.trans h)

/-- A step of a running core halts in a status exactly on its cause. -/
theorem step_hs_iff_haltCause {s t : State} {st : HaltStatus} (hr : s.hs = .running) (hp : s.params.Wf)
    (h : step s = .next t) (hst : st ≠ .running) : t.hs = st ↔ HaltCause s st := by
  have ⟨_, hopc, _⟩ := hp
  exact ⟨fun ht => ht ▸ step_haltCause hr hopc h, step_hs_of_haltCause hr hp h hst⟩

/-- Settles O31: a halt status has its cause, at each fault kind and at EXITED. -/
theorem stepFaultsExactlyOnTheirCauses : Obligations.StepFaultsExactlyOnTheirCauses :=
  fun _ _ hr hp h => ⟨fun _ => step_hs_iff_haltCause hr hp h nofun, step_hs_iff_haltCause hr hp h nofun⟩

end Sys2Proof.Machine

namespace Sys2Proof.Machine

/-! Runs under a bound, refused constructions and halted cores (R109, R114-R116). -/

/-- Within the bound, after at least one step, the core has halted with this output and these registers. -/
def HaltsWithin (fuel : Nat) (s : State) (result : List Byte × Regs) : Prop :=
  ∃ k, 1 ≤ k ∧ k ≤ fuel ∧ (stepMany k s).hs ≠ .running ∧ result = ((stepMany k s).out, (stepMany k s).regs)

theorem not_haltsWithin_zero (s : State) (result : List Byte × Regs) : ¬ HaltsWithin 0 s result := by
  rintro ⟨k, hpos, hle, -⟩
  omega

/-- Once the first step halts, the later ones change nothing, so its end is the only one. -/
theorem haltsWithin_succ_of_halted {s t : State} (h : step s = .next t) (ht : t.hs ≠ .running) (fuel : Nat)
    (result : List Byte × Regs) : HaltsWithin (fuel + 1) s result ↔ result = (t.out, t.regs) := by
  have hstay (k : Nat) : stepMany (k + 1) s = t := (stepMany_succ h k).trans (stepMany_halted ht k)
  constructor
  · rintro ⟨_ | k, hpos, -, -, hres⟩
    · omega
    · rwa [hstay] at hres
  · intro hres
    exact ⟨1, le_rfl, by omega, by rwa [hstay 0], by rwa [hstay 0]⟩

/-- If the first step runs on, the core halts exactly when the next state does, one step earlier. -/
theorem haltsWithin_succ_of_running {s t : State} (h : step s = .next t) (ht : t.hs = .running) (fuel : Nat)
    (result : List Byte × Regs) : HaltsWithin (fuel + 1) s result ↔ HaltsWithin fuel t result := by
  constructor
  · rintro ⟨_ | _ | k, hpos, hle, hhalt, hres⟩
    · omega
    · rw [stepMany_succ h] at hhalt
      exact absurd ht hhalt
    · rw [stepMany_succ h] at hhalt hres
      exact ⟨k + 1, by omega, by omega, hhalt, hres⟩
  · rintro ⟨k, -, hle, hhalt, hres⟩
    rw [← stepMany_succ h] at hhalt hres
    exact ⟨k + 1, by omega, by omega, hhalt, hres⟩

theorem runToCompletion_succ_of_halted {s t : State} (h : step s = .next t) (ht : t.hs ≠ .running)
    (fuel : Nat) : runToCompletion (fuel + 1) s = some (t.out, t.regs) := by
  rw [runToCompletion, hostStep_eq h, State.halted, decide_eq_true ht]

theorem runToCompletion_succ_of_running {s t : State} (h : step s = .next t) (ht : t.hs = .running)
    (fuel : Nat) : runToCompletion (fuel + 1) s = runToCompletion fuel t := by
  rw [runToCompletion, hostStep_eq h, State.halted, decide_eq_false (not_not_intro ht)]

theorem runToCompletion_eq_some_iff {fuel : Nat} {s : State} {result : List Byte × Regs} :
    runToCompletion fuel s = some result ↔ HaltsWithin fuel s result := by
  induction fuel generalizing s with
  | zero => exact iff_of_false nofun (not_haltsWithin_zero s result)
  | succ fuel ih =>
    obtain ⟨t, h, -⟩ := step_effect s
    by_cases ht : t.hs = .running
    · rw [runToCompletion_succ_of_running h ht, haltsWithin_succ_of_running h ht, ih]
    · rw [runToCompletion_succ_of_halted h ht, haltsWithin_succ_of_halted h ht, Option.some_inj, eq_comm]

/-- Settles O49, by induction on the bound: both sides look at the state after the first step, and a halted
one never changes again. -/
theorem runReturnsTheHaltedState : Obligations.RunReturnsTheHaltedState :=
  fun _ _ _ => runToCompletion_eq_some_iff

theorem construct_eq_none_iff {p : Params} {init : Init} {image input : List Byte} {rb wb : Int} :
    construct p init image input rb wb = none ↔ image.length % 3 ≠ 0 ∨ rb < 0 ∨ wb < 0 := by
  have himage : imageWf image = true ↔ image.length % 3 = 0 := by simp [imageWf, Config.recordLength]
  rw [construct, ite_eq_right_iff, himage]
  simp only [reduceCtorEq, imp_false]
  omega

/-- Settles O48: the refusals are the failures of construct's three checks; the empty image has no slot, so
the start index is past it. -/
theorem constructionIsRefusedExactly : Obligations.ConstructionIsRefusedExactly := by
  refine fun p init image input rb wb => ⟨construct_eq_none_iff, fun s h => ?_⟩
  obtain ⟨_, _, _, rfl⟩ := construct_eq_some h
  exact fetchPastTheImageFaults _ rfl (Nat.zero_div Config.recordLength).le

/-- Settles O28: a halted core's step answers the core itself, with the boolean that it has halted. -/
theorem haltedCoreIsAbsorbing : Obligations.HaltedCoreIsAbsorbing := by
  intro s hs
  have hhost : hostStep s = (s, true) := by rw [hostStep_eq (step_halted hs), State.halted, decide_eq_true hs]
  exact ⟨step_halted hs, hhost, stepMany_halted hs⟩

end Sys2Proof.Machine
